-- ==== Sys2Proof/Word.lean ====
section
/-! DEFINITION. The bit-vector types of the block (00_scope.md R7: "All values are bit vectors"). -/

namespace Sys2Proof

/-- A register of the block, or the data of a host access: 32 bits (10_state.md section 8; 00_scope.md section 4,
host data width). -/
abbrev Word := BitVec 32

/-- A 16-bit flag register, FIN or COR (10_state.md R11, R12). -/
abbrev Half := BitVec 16

/-- One byte of the frame buffer (10_state.md R16). -/
abbrev Byte := BitVec 8

end Sys2Proof
end

