-- ==== Sys2Proof/Config.lean ====
section
/-! DEFINITION. The parameters of one block, fixed for its life (00_scope.md R1 to R5). They are plain data in State,
so that every statement about the machine holds for every value of them (notes/assumptions/1.md). -/

namespace Sys2Proof

/-- The byte order of every multi-byte header field, the parameter ENDIAN (00_scope.md R4). -/
inductive Endian where
  | big
  | little
  deriving DecidableEq, Repr

/-- HDR_SIZE, fixed at 16 (00_scope.md R1). -/
def hdrSize : Nat := 16

/-- The size in bytes of the host window at HC_BASE (00_scope.md R5; 20_memory.md R25). -/
def windowSize : Nat := 0x1000

/-- The offset of FBUF[0] in the window; below it lies the register window (20_memory.md R26). -/
def bufferWindow : Nat := 0x400

/-- The parameters of one block (00_scope.md section 4). -/
structure Config where
  /-- MAX_PAYLOAD, the payload capacity in bytes (R2). -/
  maxPayload : Nat
  /-- ENDIAN (R4). -/
  endian : Endian
  /-- HC_BASE, the host address of the window (R5). -/
  base : Nat
  deriving DecidableEq, Repr

/-- BUF_SIZE = HDR_SIZE + MAX_PAYLOAD (00_scope.md R3). -/
def Config.bufSize (c : Config) : Nat := hdrSize + c.maxPayload

/-- The reference parameters: MAX_PAYLOAD = 1024 (R2) and ENDIAN = BIG (R4). The spec gives HC_BASE no reference
value; 0 is a DESIGN CHOICE (notes/assumptions/2.md). -/
def Config.reference : Config :=
  { maxPayload := 1024, endian := .big, base := 0 }

end Sys2Proof
end

