-- ==== Sys2Proof/Syntax.lean ====
section
/-! DEFINITION. The commands of HC-CMD revision 1: one constructor for each row of spec/opcode_table.json. The commands
take no operands (30_encoding.md section 3). What the host does on the bus is no instruction of the table: it is in
Machine/Transaction.lean. -/

namespace Sys2Proof

/-- A command (30_encoding.md R49). -/
inductive Instr where
  /-- NOP, command word 0x00000000 (42_control.md R67). -/
  | nop
  /-- ENCODE, command word 0x00000001 (40_serializer.md R54, fc = 0). -/
  | encode
  /-- ENCODE.FC, command word 0x00000011 (40_serializer.md R54, fc = 1, and R56). -/
  | encodeFc
  /-- DECODE, command word 0x00000002 (41_deserializer.md R58). -/
  | decode
  /-- CLEAR, command word 0x00000003 (42_control.md R68). -/
  | clear
  deriving DecidableEq, Repr

end Sys2Proof
end

