-- ==== Sys2Proof/Decode.lean ====
section
/-! DEFINITION. The command word: its fields (30_encoding.md R48), the decoder, total on every 32-bit word and
rejecting by name (R49, R50), and the encoder. -/

namespace Sys2Proof

/-- Why a command word is illegal (30_encoding.md R50). -/
inductive DecodeError where
  /-- A bit of RSV, bits 31:5, is set. -/
  | reservedBitsSet
  /-- OP is one of 4 to 15. -/
  | reservedOp
  /-- FC = 1 with OP other than 1 (ENCODE). -/
  | fcWithoutEncode
  deriving DecidableEq, Repr

/-- The OP field, bits 3:0 (R48). -/
def cmdOp (w : Word) : BitVec 4 := w.extractLsb' 0 4

/-- The FC field, bit 4 (R48). -/
def cmdFc (w : Word) : Bool := w.getLsbD 4

/-- The RSV field, bits 31:5 (R48). -/
def cmdRsv (w : Word) : BitVec 27 := w.extractLsb' 5 27

/-- Which of R50's reasons an illegal word falls under, RSV looked at first, then OP, then FC. The order decides only
the name of the rejection: the block's answer to every illegal word is the same (notes/assumptions/12.md). -/
def illegalReason (w : Word) : DecodeError :=
  if cmdRsv w ≠ 0 then .reservedBitsSet
  else if 4 ≤ (cmdOp w).toNat then .reservedOp
  else .fcWithoutEncode

/-- Decoding, by equality on the whole word (R49); every other word is illegal (R50). -/
def decodeCmd (w : Word) : Except DecodeError Instr :=
  if w = 0x00000000#32 then .ok .nop
  else if w = 0x00000001#32 then .ok .encode
  else if w = 0x00000011#32 then .ok .encodeFc
  else if w = 0x00000002#32 then .ok .decode
  else if w = 0x00000003#32 then .ok .clear
  else .error (illegalReason w)

/-- The OP value of a command (R48). -/
def opOf : Instr → BitVec 4
  | .nop => 0
  | .encode => 1
  | .encodeFc => 1
  | .decode => 2
  | .clear => 3

/-- The FC bit of a command (R48). -/
def fcOf : Instr → Bool
  | .nop => false
  | .encode => false
  | .encodeFc => true
  | .decode => false
  | .clear => false

/-- The command word: RSV = 0, then FC, then OP (R48). -/
def encodeCmd (i : Instr) : Word :=
  (0#27 ++ BitVec.ofBool (fcOf i)) ++ opOf i

/-- The 32-bit datum that stands for a word of the opcode table: a command is one 32-bit word (R48), which the host
writes to CMD whole, so it has no byte order. Bits at and above nbits are 0. -/
def tableWord (nbits w : Nat) : Word := BitVec.ofNat 32 (w % 2 ^ nbits)

/-- The decoder on a word of the opcode table. A command is 32 bits wide (R48), so a longer one is none. -/
def decodeTableWord (nbits w : Nat) : Option Instr :=
  if nbits ≤ 32 then
    match decodeCmd (tableWord nbits w) with
    | .ok i => some i
    | .error _ => none
  else none

end Sys2Proof
end

