-- ==== Sys2Proof/Machine/Transaction.lean ====
section
/-! DEFINITION. What the host does to the block: bus accesses and reset; the block's answers; the host-transaction
notation and the pseudo-instructions (30_encoding.md R52, R53). -/

namespace Sys2Proof.Machine

/-- The width of a bus access: 1, 2 or 4 bytes (20_memory.md R28, R29; host data width 32 bits, 00_scope.md section 4). -/
inductive Width where
  | w8
  | w16
  | w32
  deriving DecidableEq, Repr

/-- One bus access of the host, with its host address: HC_BASE plus the offset of MemRead and MemWrite
(00_scope.md R5, section 5). -/
inductive Access where
  | read (w : Width) (addr : Nat)
  | write (w : Width) (addr : Nat) (v : Word)
  deriving DecidableEq, Repr

/-- The host address of an access. -/
def Access.addr : Access → Nat
  | .read _ a => a
  | .write _ a _ => a

/-- One input from outside the block: an access of the host (00_scope.md R6), or hardware reset
(70_reset_and_hazards.md R81). -/
inductive HostInput where
  | access (a : Access)
  | reset
  deriving DecidableEq, Repr

/-- The block's answer to one access. -/
inductive Answer where
  /-- The 32-bit value of a register read (20_memory.md R32). -/
  | word (v : Word)
  /-- The byte of a buffer-window read (20_memory.md R31, R39). -/
  | byte (b : Byte)
  /-- A write was accepted; it returns no data. -/
  | done
  /-- The access was answered with a bus error; no data (60_exceptions.md R73). -/
  | busError
  deriving DecidableEq, Repr

/-- The sticky error bits of STATUS (10_state.md R20). -/
inductive ErrorBit where
  /-- E_MALF, STATUS bit 8 (60_exceptions.md R70). -/
  | malf
  /-- E_ILL, STATUS bit 9 (60_exceptions.md R71). -/
  | ill
  /-- E_OVR, STATUS bit 10 (60_exceptions.md R72). -/
  | ovr
  deriving DecidableEq, Repr

/-- What the never-cleared log of errors records (60_exceptions.md R73; 92_eei_decisions.md D13). -/
inductive Cause where
  | error (e : ErrorBit)
  | busError
  deriving DecidableEq, Repr

/-- The registers of the register window (20_memory.md R27). -/
inductive Reg where
  | cmd
  | status
  | seq
  | ack
  | fin
  | cor
  | len
  | flen
  | pavail
  | cfg
  /-- Offsets 0x028 to 0x3FC (R30). -/
  | reserved
  deriving DecidableEq, Repr

/-- What an access reaches in the window. -/
inductive Target where
  /-- A register. -/
  | reg (r : Reg)
  /-- The frame byte FBUF[i] (20_memory.md R39). -/
  | frameByte (i : Nat)
  /-- The buffer window past FBUF (20_memory.md R31). -/
  | tail
  /-- Nothing: the bus map does not admit the access (20_memory.md R28, R29). -/
  | busError
  deriving DecidableEq, Repr

/-- The offset of a register (20_memory.md R27; the names of 30_encoding.md R52). For the reserved registers it is the
first of their offsets. -/
def Reg.offset : Reg → Nat
  | .cmd => 0x000
  | .status => 0x004
  | .seq => 0x008
  | .ack => 0x00C
  | .fin => 0x010
  | .cor => 0x014
  | .len => 0x018
  | .flen => 0x01C
  | .pavail => 0x020
  | .cfg => 0x024
  | .reserved => 0x028

/-- A host transaction in the notation of 30_encoding.md R52. -/
inductive Txn where
  | wr32 (off : Nat) (v : Word)
  | rd32 (off : Nat)
  | wr8 (off : Nat) (b : Word)
  | rd8 (off : Nat)
  | command (i : Instr)
  deriving DecidableEq, Repr

/-- The bus access a transaction stands for (R52, last column). -/
def Txn.access (c : Config) : Txn → Access
  | .wr32 off v => .write .w32 (c.base + off) v
  | .rd32 off => .read .w32 (c.base + off)
  | .wr8 off b => .write .w8 (c.base + off) b
  | .rd8 off => .read .w8 (c.base + off)
  | .command i => .write .w32 (c.base + Reg.cmd.offset) (encodeCmd i)

/-- A pseudo-instruction (R53). -/
inductive Pseudo where
  | sethdr (s a f c l : Word)
  | wrbuf (i : Nat) (bs : List Byte)
  | rdbuf (i n : Nat)
  | rxframe (n : Word) (bs : List Byte)
  | txread
  | clrerr
  deriving DecidableEq, Repr

/-- WRBUF: byte writes at FBUF+i onward, in increasing order (R53). -/
def writeBytes (i : Nat) : List Byte → List Txn
  | [] => []
  | b :: bs => .wr8 (bufferWindow + i) (b.setWidth 32) :: writeBytes (i + 1) bs

/-- RDBUF: n byte reads at FBUF+i onward, in increasing order (R53). -/
def readBytes (i n : Nat) : List Txn :=
  (List.range n).map fun k => .rd8 (bufferWindow + i + k)

/-- The transactions a pseudo-instruction expands to when FLEN reads as `flen` (R53). TXREAD alone looks at it: its byte
reads are as many as the value its own read of FLEN returns. -/
def Pseudo.expand (flen : Word) : Pseudo → List Txn
  | .sethdr s a f c l =>
    [.wr32 Reg.seq.offset s, .wr32 Reg.ack.offset a, .wr32 Reg.fin.offset f, .wr32 Reg.cor.offset c,
      .wr32 Reg.len.offset l]
  | .wrbuf i bs => writeBytes i bs
  | .rdbuf i n => readBytes i n
  | .rxframe n bs => writeBytes 0 bs ++ [.wr32 Reg.flen.offset n]
  | .txread => .rd32 Reg.flen.offset :: readBytes 0 flen.toNat
  | .clrerr => [.wr32 Reg.status.offset 0x00000700#32]

/-- A line of a program: a host transaction (R52) or a pseudo-instruction (R53). -/
inductive Line where
  | txn (t : Txn)
  | pseudo (p : Pseudo)
  deriving DecidableEq, Repr

end Sys2Proof.Machine
end

