-- ==== Sys2Proof/Machine/State.lean ====
section
/-! DEFINITION. The state of the machine, as plain data: the block's tuple (10_state.md R8), its parameters, and the
host's side of the bus. -/

namespace Sys2Proof.Machine

/-- The frame buffer: cells (i, b) for FBUF[i] = b, i strictly rising. A byte that is not listed is ⊥ (10_state.md R16). -/
abbrev Memory := List Host.Cell

/-- The five frame fields as one value: what a header carries (30_encoding.md R45). -/
structure Header where
  seq : Word
  ack : Word
  fin : Half
  cor : Half
  len : Word
  deriving DecidableEq, Repr

/-- "The complete state of one HDRCODEC instance is the tuple (SEQ, ACK, FIN, COR, LEN, FLEN, PAVAIL, FBUF, RXV, TXV,
E_MALF, E_ILL, E_OVR)" (10_state.md R8). -/
structure Block where
  /-- SEQ (R9). -/
  seq : Word
  /-- ACK (R10). -/
  ack : Word
  /-- FIN (R11). -/
  fin : Half
  /-- COR (R12). -/
  cor : Half
  /-- LEN (R13). -/
  len : Word
  /-- FLEN, the frame byte count (R14). -/
  flen : Word
  /-- PAVAIL, the payload byte count (R15). -/
  pavail : Word
  /-- FBUF, the frame buffer (R16). -/
  fbuf : Memory
  /-- RXV, STATUS bit 0 (R18). -/
  rxv : Bool
  /-- TXV, STATUS bit 1 (R19). -/
  txv : Bool
  /-- E_MALF, STATUS bit 8 (R20). -/
  eMalf : Bool
  /-- E_ILL, STATUS bit 9 (R20). -/
  eIll : Bool
  /-- E_OVR, STATUS bit 10 (R20). -/
  eOvr : Bool
  deriving DecidableEq, Repr

/-- The block and what stands around it. Only `block` is the spec's state; the other fields are the model's. -/
structure State where
  /-- The parameters, which no step changes (notes/assumptions/1.md). -/
  cfg : Config
  /-- The spec's state (R8). -/
  block : Block
  /-- What the host will do, first thing first; a step performs the first (00_scope.md R6; notes/assumptions/3.md). -/
  inputs : List HostInput
  /-- The block's answers so far, newest first (notes/assumptions/4.md). -/
  answers : List Answer
  /-- Every error so far, newest first; nothing clears it (60_exceptions.md R73; 92_eei_decisions.md D13;
  notes/assumptions/5.md). -/
  raised : List Cause
  deriving DecidableEq, Repr

/-- Why the machine stops. Both are safe: the machine stops where the hardware goes on. -/
inductive Fault where
  /-- A rule read an FBUF byte that is ⊥. Raised by a host byte read of it and by DECODE over it (60_exceptions.md R74,
  which gives the model this fault). Safe. -/
  | undefinedByte
  /-- The host addressed something outside the block's window. Raised by a step whose access lies there; the spec's
  one address space is the window (20_memory.md R25; notes/assumptions/6.md). Safe. -/
  | outsideWindow
  deriving DecidableEq, Repr

/-- Why a step has no meaning. Safe. No arm of exec is refused in this model. -/
inductive Refusal where
  /-- The instruction of that mnemonic has no meaning yet. Raised by exec's arm for it, by no arm today. Safe. -/
  | notModelled (mnemonic : String)
  deriving DecidableEq, Repr

/-- How a step, a command or an access ends. -/
abbrev Result := Host.Outcome State Fault Refusal

/-- The block after hardware reset (70_reset_and_hazards.md R81). -/
def Block.reset : Block :=
  { seq := 0x00000000#32, ack := 0x00000000#32, fin := 0x0000#16, cor := 0x0000#16, len := 0x00000000#32
    flen := 0#32, pavail := 0#32, fbuf := []
    rxv := false, txv := false, eMalf := false, eIll := false, eOvr := false }

/-- A machine of any parameters right after reset, with nothing asked of it yet. -/
def State.resetOf (c : Config) : State :=
  { cfg := c, block := Block.reset, inputs := [], answers := [], raised := [] }

/-- The machine of the reference parameters right after reset (R81). -/
def State.reset : State := State.resetOf Config.reference

end Sys2Proof.Machine
end

