-- ==== Sys2Proof/Machine/Ops.lean ====
section
/-! DEFINITION. The named operations over the frame buffer and the registers; raising an error and clearing one, each
as one shared operation; hardware reset. -/

namespace Sys2Proof.Machine

/-! ## The frame buffer (10_state.md R16) -/

/-- The canonical form: addresses strictly rising. An entry always holds a value, so none equals ⊥, which is what an
unlisted byte reads as. -/
abbrev Memory.wf (m : Memory) : Prop := m.Pairwise fun c d => c.1 < d.1

/-- FBUF[a]: its value, or none for ⊥ (R16). -/
def Memory.read : Memory → Nat → Option Byte
  | [], _ => none
  | c :: m, a => if c.1 = a then some c.2 else Memory.read m a

/-- FBUF[a] <- v. -/
def Memory.write : Memory → Nat → Byte → Memory
  | [], a, v => [(a, v)]
  | c :: m, a, v =>
    if a < c.1 then (a, v) :: c :: m
    else if a = c.1 then (a, v) :: m
    else c :: Memory.write m a v

/-! ## Errors (60_exceptions.md section 1) -/

/-- Is the sticky bit set? -/
def Block.errorBit (b : Block) : ErrorBit → Bool
  | .malf => b.eMalf
  | .ill => b.eIll
  | .ovr => b.eOvr

/-- The sticky bit set to a value. -/
def Block.setError (e : ErrorBit) (v : Bool) (b : Block) : Block :=
  match e with
  | .malf => { b with eMalf := v }
  | .ill => { b with eIll := v }
  | .ovr => { b with eOvr := v }

/-- `raise E_X`: the block's whole exception entry. It sets the sticky bit, "whatever its previous value", and nothing
else: no state is saved, no mode changes, control does not move (R69, R77). The log keeps the raise (D13). -/
def State.raise (e : ErrorBit) (s : State) : State :=
  { s with block := s.block.setError e true, raised := .error e :: s.raised }

/-- The return from an error: a write of v to STATUS clears each sticky bit whose position is 1 in v, and nothing else
(20_memory.md R34; 60_exceptions.md R78). -/
def Block.clearErrors (v : Word) (b : Block) : Block :=
  { b with
    eMalf := b.eMalf && !v.getLsbD 8
    eIll := b.eIll && !v.getLsbD 9
    eOvr := b.eOvr && !v.getLsbD 10 }

/-! ## Registers -/

/-- RXV <- 0 ; TXV <- 0: what every write to a field register, FLEN or FBUF does (10_state.md R18, R19). -/
def Block.invalidate (b : Block) : Block := { b with rxv := false, txv := false }

/-- The five field registers as a header. -/
def Block.header (b : Block) : Header :=
  { seq := b.seq, ack := b.ack, fin := b.fin, cor := b.cor, len := b.len }

/-- The five field registers loaded from a header. -/
def Block.setHeader (h : Header) (b : Block) : Block :=
  { b with seq := h.seq, ack := h.ack, fin := h.fin, cor := h.cor, len := h.len }

/-- A host write to FLEN: clamped to BUF_SIZE, with E_OVR raised when v is above it; the compare is unsigned
(20_memory.md R37). -/
def State.writeFlen (v : Word) (s : State) : State :=
  if s.cfg.bufSize < v.toNat then
    State.raise .ovr { s with block := { s.block.invalidate with flen := BitVec.ofNat 32 s.cfg.bufSize } }
  else
    { s with block := { s.block.invalidate with flen := v } }

/-- A host write to FBUF[i] (20_memory.md R39). -/
def Block.writeFrameByte (i : Nat) (v : Byte) (b : Block) : Block :=
  { b.invalidate with fbuf := b.fbuf.write i v }

/-! ## Answers and reset -/

/-- The block answers an access. -/
def State.answer (a : Answer) (s : State) : State := { s with answers := a :: s.answers }

/-- An access the bus map does not admit: answered with a bus error, recorded, and nothing else
(60_exceptions.md R73). -/
def State.busError (s : State) : State :=
  { s with answers := .busError :: s.answers, raised := .busError :: s.raised }

/-- A write that went on is answered `done`; one that stopped is not answered. -/
def answerDone : Result → Result
  | .next s => .next (s.answer .done)
  | .fault r => .fault r
  | .refused r => .refused r

/-- Hardware reset of the block (70_reset_and_hazards.md R81). The parameters, the host's inputs and the two logs are not
the block's state and stay (notes/assumptions/7.md). -/
def State.hardwareReset (s : State) : State := { s with block := Block.reset }

end Sys2Proof.Machine
end

