-- ==== Sys2Proof/Machine/Control.lean ====
section
/-! DEFINITION. The control commands: NOP and CLEAR (42_control.md R67, R68). -/

namespace Sys2Proof.Machine

/-- NOP: "No state changes" (R67). -/
def execNop (s : State) : Result := .next s

/-- CLEAR: every register returns to its reset value and FBUF is left alone (R68). -/
def execClear (s : State) : Result :=
  .next { s with block := { Block.reset with fbuf := s.block.fbuf } }

end Sys2Proof.Machine
end

