-- ==== Sys2Proof/Machine/Operands.lean ====
section
/-! DEFINITION. Assembling header fields from bytes and bytes from fields (20_memory.md R40, R41; 30_encoding.md R45);
the payload extent (40_serializer.md R55) and the outgoing corrupted field (R56); the frame in the buffer. -/

namespace Sys2Proof.Machine

/-- put32(i, v) (20_memory.md R40). -/
def put32 (e : Endian) (i : Nat) (v : Word) (m : Memory) : Memory :=
  match e with
  | .big =>
    (((m.write i (v.extractLsb' 24 8)).write (i + 1) (v.extractLsb' 16 8)).write (i + 2) (v.extractLsb' 8 8)).write
      (i + 3) (v.extractLsb' 0 8)
  | .little =>
    (((m.write i (v.extractLsb' 0 8)).write (i + 1) (v.extractLsb' 8 8)).write (i + 2) (v.extractLsb' 16 8)).write
      (i + 3) (v.extractLsb' 24 8)

/-- put16(i, v) (20_memory.md R40). -/
def put16 (e : Endian) (i : Nat) (v : Half) (m : Memory) : Memory :=
  match e with
  | .big => (m.write i (v.extractLsb' 8 8)).write (i + 1) (v.extractLsb' 0 8)
  | .little => (m.write i (v.extractLsb' 0 8)).write (i + 1) (v.extractLsb' 8 8)

/-- get32(i), or none where one of its bytes is ⊥ (20_memory.md R41). -/
def get32 (e : Endian) (i : Nat) (m : Memory) : Option Word := do
  let b0 ← m.read i
  let b1 ← m.read (i + 1)
  let b2 ← m.read (i + 2)
  let b3 ← m.read (i + 3)
  match e with
  | .big => some (b0 ++ b1 ++ b2 ++ b3)
  | .little => some (b3 ++ b2 ++ b1 ++ b0)

/-- get16(i), or none where one of its bytes is ⊥ (20_memory.md R41). -/
def get16 (e : Endian) (i : Nat) (m : Memory) : Option Half := do
  let b0 ← m.read i
  let b1 ← m.read (i + 1)
  match e with
  | .big => some (b0 ++ b1)
  | .little => some (b1 ++ b0)

/-- The header fields put at their frame offsets 0, 4, 8, 10 and 12 (30_encoding.md R45; 40_serializer.md R54). -/
def putHeader (e : Endian) (h : Header) (m : Memory) : Memory :=
  put32 e 12 h.len (put16 e 10 h.cor (put16 e 8 h.fin (put32 e 4 h.ack (put32 e 0 h.seq m))))

/-- The header fields read from their frame offsets, or none where a byte of FBUF[0..15] is ⊥ (30_encoding.md R45;
41_deserializer.md R58). -/
def getHeader (e : Endian) (m : Memory) : Option Header := do
  let s ← get32 e 0 m
  let a ← get32 e 4 m
  let f ← get16 e 8 m
  let c ← get16 e 10 m
  let l ← get32 e 12 m
  some { seq := s, ack := a, fin := f, cor := c, len := l }

/-- extent(len) = min(len, MAX_PAYLOAD), unsigned (40_serializer.md R55). -/
def extent (c : Config) (len : Word) : Word := BitVec.ofNat 32 (min len.toNat c.maxPayload)

/-- cor_out(fc, cor) (40_serializer.md R56). -/
def corOut (fc : Bool) (cor : Half) : Half := if fc then 0x0001#16 else cor

/-- The current frame, FBUF[0 .. FLEN), with none for a byte that is ⊥ (10_state.md R14; 30_encoding.md R46, R47). -/
def Block.frame (b : Block) : List (Option Byte) := (List.range b.flen.toNat).map b.fbuf.read

/-- A consumer's reading of SEQ or ACK: the two's-complement value of the pattern (10_state.md R9, R10). The block itself
never reads a register so; the spec marks this as general knowledge (notes/assumptions/11.md). -/
def signedReading (v : Word) : Int := v.toInt

end Sys2Proof.Machine
end

