-- ==== Sys2Proof/Machine/Deserializer.lean ====
section
/-! DEFINITION. The deserializer and frame decoder: DECODE (41_deserializer.md R58 to R60). -/

namespace Sys2Proof.Machine

/-- decode_fail(): E_MALF is raised, PAVAIL, RXV and TXV are cleared, and the rest stays (R59). -/
def decodeFail (s : State) : State :=
  State.raise .malf { s with block := { s.block with pavail := 0#32, rxv := false, txv := false } }

/-- A header parsed: the fields are loaded, PAVAIL is FLEN - HDR_SIZE, RXV is set and TXV cleared (R58). -/
def loadHeader (h : Header) (s : State) : State :=
  { s with
    block :=
      { s.block.setHeader h with
        pavail := s.block.flen - BitVec.ofNat 32 hdrSize
        rxv := true
        txv := false } }

/-- DECODE. FLEN is looked at first, so a short frame reads no byte (R59, R76); then FBUF[0..15] is read, and one of its
bytes being ⊥ is the fault UndefinedByte that R58 and R74 give the model. Nothing else is checked (R60). -/
def execDecode (s : State) : Result :=
  if s.block.flen.toNat < hdrSize then .next (decodeFail s)
  else
    match getHeader s.cfg.endian s.block.fbuf with
    | some h => .next (loadHeader h s)
    | none => .fault .undefinedByte

end Sys2Proof.Machine
end

