-- ==== Sys2Proof/Machine/Serializer.lean ====
section
/-! DEFINITION. The serializer: ENCODE and ENCODE.FC (40_serializer.md R54 to R57). -/

namespace Sys2Proof.Machine

/-- ENCODE with the modifier bit fc: the five fields go into FBUF[0..15], FLEN and PAVAIL follow the extent, TXV is set
and RXV cleared (R54). COR itself is not written (R56); it never fails (R57). -/
def serialize (fc : Bool) (s : State) : State :=
  { s with
    block :=
      { s.block with
        fbuf := putHeader s.cfg.endian { s.block.header with cor := corOut fc s.block.cor } s.block.fbuf
        flen := BitVec.ofNat 32 hdrSize + extent s.cfg s.block.len
        pavail := extent s.cfg s.block.len
        txv := true
        rxv := false } }

/-- ENCODE (R54 with fc = 0). -/
def execEncode (s : State) : Result := .next (serialize false s)

/-- ENCODE.FC (R54 with fc = 1; R56). -/
def execEncodeFc (s : State) : Result := .next (serialize true s)

end Sys2Proof.Machine
end

