-- ==== Sys2Proof/Machine/Dispatch.lean ====
section
/-! DEFINITION. One arm for each command (30_encoding.md R49). -/

namespace Sys2Proof.Machine

def exec (i : Instr) (s : State) : Host.Outcome State Fault Refusal :=
  match i with
  | .nop => Sys2Proof.Machine.execNop s
  | .encode => Sys2Proof.Machine.execEncode s
  | .encodeFc => Sys2Proof.Machine.execEncodeFc s
  | .decode => Sys2Proof.Machine.execDecode s
  | .clear => Sys2Proof.Machine.execClear s

end Sys2Proof.Machine
end

