-- ==== Sys2Proof/Machine/Flags.lean ====
section
/-! DEFINITION. Flag extraction (41_deserializer.md R61 to R65), the STATUS word (10_state.md R17) and the CFG word
(10_state.md R21). The live flags are computed at each read and are no state (R8). -/

namespace Sys2Proof.Machine

/-- STATUS.FINF = (FIN = 0x0001) (41_deserializer.md R61). -/
def Block.finf (b : Block) : Bool := b.fin == 0x0001#16

/-- STATUS.CORF = (COR = 0x0001) (R62). -/
def Block.corf (b : Block) : Bool := b.cor == 0x0001#16

/-- STATUS.FIN_NC: FIN is neither 0x0000 nor 0x0001 (R63). -/
def Block.finNc (b : Block) : Bool := b.fin != 0x0000#16 && b.fin != 0x0001#16

/-- STATUS.COR_NC: COR is neither 0x0000 nor 0x0001 (R64). -/
def Block.corNc (b : Block) : Bool := b.cor != 0x0000#16 && b.cor != 0x0001#16

/-- STATUS.LENOVR = (LEN > MAX_PAYLOAD), unsigned (R65). -/
def Block.lenovr (c : Config) (b : Block) : Bool := decide (c.maxPayload < b.len.toNat)

/-- A word with one bit, at position k, when x holds. -/
def flagAt (k : Nat) (x : Bool) : Word := (BitVec.ofBool x).setWidth 32 <<< k

/-- The read value of STATUS (10_state.md R17). Bits 7 and 31:11 are reserved and read 0. -/
def statusWord (c : Config) (b : Block) : Word :=
  flagAt 10 b.eOvr ||| flagAt 9 b.eIll ||| flagAt 8 b.eMalf ||| flagAt 6 (b.lenovr c) ||| flagAt 5 b.corNc
    ||| flagAt 4 b.finNc ||| flagAt 3 b.corf ||| flagAt 2 b.finf ||| flagAt 1 b.txv ||| flagAt 0 b.rxv

/-- Is the byte order BIG? It is CFG[24]. -/
def bigEndian : Endian → Bool
  | .big => true
  | .little => false

/-- The value of CFG: revision 1 in bits 31:28, 0 in 27:25, the byte order in 24, HDR_SIZE in 23:16 and MAX_PAYLOAD in
15:0 (10_state.md R21; the sum of 92_eei_decisions.md D21). -/
def cfgWord (c : Config) : Word :=
  (BitVec.ofNat 16 c.maxPayload).setWidth 32 ||| BitVec.ofNat 32 hdrSize <<< 16 ||| flagAt 24 (bigEndian c.endian)
    ||| 1#32 <<< 28

end Sys2Proof.Machine
end

