-- ==== Sys2Proof/Machine/Bus.lean ====
section
/-! DEFINITION. The host's accesses to the window (20_memory.md sections 1 to 3): the map, the admitted widths, the
register reads and writes, the buffer bytes, and a write to CMD, which runs the whole command. -/

namespace Sys2Proof.Machine

/-- The register at a word-aligned offset of the register window (20_memory.md R27). -/
def regAt (off : Nat) : Reg :=
  match off with
  | 0x000 => .cmd
  | 0x004 => .status
  | 0x008 => .seq
  | 0x00C => .ack
  | 0x010 => .fin
  | 0x014 => .cor
  | 0x018 => .len
  | 0x01C => .flen
  | 0x020 => .pavail
  | 0x024 => .cfg
  | _ => .reserved

/-- What an access of a width at an offset of the window reaches (20_memory.md R26 to R31). -/
def target (c : Config) (w : Width) (off : Nat) : Target :=
  if off < bufferWindow then
    if w = .w32 ∧ off % 4 = 0 then .reg (regAt off) else .busError
  else if w = .w8 then
    if off - bufferWindow < c.bufSize then .frameByte (off - bufferWindow) else .tail
  else .busError

/-- The value a register reads as (20_memory.md R32, R30; 10_state.md R22). -/
def readReg (r : Reg) (s : State) : Word :=
  match r with
  | .cmd => 0x00000000#32
  | .status => statusWord s.cfg s.block
  | .seq => s.block.seq
  | .ack => s.block.ack
  | .fin => s.block.fin.setWidth 32
  | .cor => s.block.cor.setWidth 32
  | .len => s.block.len
  | .flen => s.block.flen
  | .pavail => s.block.pavail
  | .cfg => cfgWord s.cfg
  | .reserved => 0x00000000#32

/-- A write of w to CMD: the command w encodes runs to completion, or E_ILL is raised (20_memory.md R33; 60_exceptions.md
R71). -/
def startCommand (w : Word) (s : State) : Result :=
  match decodeCmd w with
  | .ok i => exec i s
  | .error _ => .next (s.raise .ill)

/-- A write to a register (20_memory.md R33 to R38, R30). -/
def writeReg (r : Reg) (v : Word) (s : State) : Result :=
  match r with
  | .cmd => startCommand v s
  | .status => .next { s with block := s.block.clearErrors v }
  | .seq => .next { s with block := { s.block.invalidate with seq := v } }
  | .ack => .next { s with block := { s.block.invalidate with ack := v } }
  | .fin => .next { s with block := { s.block.invalidate with fin := v.setWidth 16 } }
  | .cor => .next { s with block := { s.block.invalidate with cor := v.setWidth 16 } }
  | .len => .next { s with block := { s.block.invalidate with len := v } }
  | .flen => .next (s.writeFlen v)
  | .pavail => .next s
  | .cfg => .next s
  | .reserved => .next s

/-- A read of what an access reaches (20_memory.md R31, R32, R39; 60_exceptions.md R73, R74). -/
def readTarget (t : Target) (s : State) : Result :=
  match t with
  | .reg r => .next (s.answer (.word (readReg r s)))
  | .frameByte i =>
    match s.block.fbuf.read i with
    | some b => .next (s.answer (.byte b))
    | none => .fault .undefinedByte
  | .tail => .next (s.answer (.byte 0x00#8))
  | .busError => .next s.busError

/-- A write of v to what an access reaches (20_memory.md R31, R33 to R39; 60_exceptions.md R73). A byte write takes
v[7:0] (R39). -/
def writeTarget (t : Target) (v : Word) (s : State) : Result :=
  match t with
  | .reg r => answerDone (writeReg r v s)
  | .frameByte i => .next (State.answer .done { s with block := s.block.writeFrameByte i (v.setWidth 8) })
  | .tail => .next (s.answer .done)
  | .busError => .next s.busError

/-- Does a host address lie in the window? (00_scope.md R5; 20_memory.md R25) -/
def inWindow (c : Config) (addr : Nat) : Bool := decide (c.base ≤ addr) && decide (addr < c.base + windowSize)

/-- One access of the host. -/
def access (a : Access) (s : State) : Result :=
  if inWindow s.cfg a.addr then
    match a with
    | .read w addr => readTarget (target s.cfg w (addr - s.cfg.base)) s
    | .write w addr v => writeTarget (target s.cfg w (addr - s.cfg.base)) v s
  else .fault .outsideWindow

/-- One input from outside: an access, or hardware reset. -/
def performInput (x : HostInput) (s : State) : Result :=
  match x with
  | .access a => access a s
  | .reset => .next s.hardwareReset

/-- The input that puts a command word before the block: a 32-bit write of it to CMD (30_encoding.md R52). -/
def commandInput (c : Config) (w : Word) : HostInput := .access (.write .w32 (c.base + Reg.cmd.offset) w)

end Sys2Proof.Machine
end

