-- ==== Sys2Proof/Machine/Step.lean ====
section
/-! DEFINITION. One step: the host's next input performed, whole (00_scope.md R6; 20_memory.md R43). -/

namespace Sys2Proof.Machine

/-- One step. With no input waiting the block does nothing: it "never starts an action of its own" (00_scope.md R6). -/
def step (s : State) : Host.Outcome State Fault Refusal :=
  match s.inputs with
  | [] => .next s
  | x :: rest => performInput x { s with inputs := rest }

/-- s with a command word as the host's next input: the write of it to CMD that the very next step performs. -/
def State.withFetchWord (s : State) (nbits w : Nat) : State :=
  { s with inputs := commandInput s.cfg (tableWord nbits w) :: s.inputs }

end Sys2Proof.Machine
end

