-- ==== Sys2Proof/Machine/Program.lean ====
section
/-! DEFINITION. Programs: "the host's sequence of accesses" (10_state.md R23) in the notation of 30_encoding.md R52 and R53.
The host issues a line when its turn comes, so what a line stands for may depend on the state it is issued in. -/

namespace Sys2Proof.Machine

/-- The transactions a pseudo-instruction stands for when it is issued in s. TXREAD reads FLEN first, and that read returns
s's FLEN (20_memory.md R32), so the number of its byte reads is s's FLEN (notes/assumptions/15.md). -/
def Pseudo.transactions (p : Pseudo) (s : State) : List Txn := p.expand s.block.flen

/-- A pseudo-instruction issued in s, as inputs of the block. -/
def Pseudo.inputs (p : Pseudo) (s : State) : List HostInput :=
  (p.transactions s).map fun t => .access (t.access s.cfg)

/-- A line issued in s, as inputs of the block. -/
def Line.inputs (l : Line) (s : State) : List HostInput :=
  match l with
  | .txn t => [.access (t.access s.cfg)]
  | .pseudo p => p.inputs s

/-- The host issues a line: its accesses are what the block performs next. -/
def State.issue (l : Line) (s : State) : State := { s with inputs := l.inputs s ++ s.inputs }

/-- A program run from s, line by line: each is issued in the state the lines before it left, and performed whole. -/
def runProgram : List Line → State → Result
  | [], s => .next s
  | l :: ls, s =>
    match core.run (l.inputs s).length (s.issue l) with
    | .next t => runProgram ls t
    | .fault r => .fault r
    | .refused r => .refused r

end Sys2Proof.Machine
end

