-- ==== Sys2Proof/WellFormed.lean ====
section
/-! DEFINITION. Well-formedness: of the parameters (00_scope.md R2, R5), of a command, and of a host transaction
(30_encoding.md R52, R53). Every check is a Bool. -/

namespace Sys2Proof

/-- MAX_PAYLOAD lies in 1 to 3056 (00_scope.md R2). -/
def Config.capacityOk (c : Config) : Bool := decide (1 ≤ c.maxPayload) && decide (c.maxPayload ≤ 3056)

/-- HC_BASE is a multiple of 4096 (00_scope.md R5). -/
def Config.baseOk (c : Config) : Bool := c.base % 4096 == 0

/-- The parameters are in their ranges. -/
def Config.wf (c : Config) : Bool := c.capacityOk && c.baseOk

/-- A command has no operand (30_encoding.md section 3), so its fields are all there is to check: FC goes with OP = 1
only (R48). It holds of every command. -/
def Instr.wf (i : Instr) : Bool := !fcOf i || opOf i == 1

namespace Machine

/-- R52's conditions on a transaction: WR32 at a multiple of 4 in 0x000 to 0x3FC, WR8 in 0x400 to 0xFFF. R52 puts none
on a read. -/
def Txn.wf : Txn → Bool
  | .wr32 off _ => decide (off ≤ 0x3FC) && off % 4 == 0
  | .rd32 _ => true
  | .wr8 off _ => decide (bufferWindow ≤ off) && decide (off ≤ 0xFFF)
  | .rd8 _ => true
  | .command i => i.wf

/-- R53's condition on RXFRAME: the bytes given are the first min(n, BUF_SIZE) of the datagram. -/
def Pseudo.wf (c : Config) : Pseudo → Bool
  | .sethdr _ _ _ _ _ => true
  | .wrbuf _ _ => true
  | .rdbuf _ _ => true
  | .rxframe n bs => bs.length == min n.toNat c.bufSize
  | .txread => true
  | .clrerr => true

/-- A line of a program. -/
def Line.wf (c : Config) : Line → Bool
  | .txn t => t.wf
  | .pseudo p => p.wf c

end Machine

end Sys2Proof
end

