-- ==== Sys2Proof/Safety.lean ====
section
/-! DEFINITION. The words the claims are stated in: what a good state is, what the validity bits promise, the wire form
of a header written down a second time, and the kinds of input. -/

namespace Sys2Proof.Machine

/-! ## Good states -/

/-- What every reachable state of a block with legal parameters satisfies. -/
structure State.Inv (s : State) : Prop where
  /-- The parameters are in their ranges (00_scope.md R2, R5). -/
  cfgWf : s.cfg.wf = true
  /-- 0 ≤ FLEN ≤ BUF_SIZE (10_state.md R14). -/
  flenBound : s.block.flen.toNat ≤ s.cfg.bufSize
  /-- 0 ≤ PAVAIL ≤ MAX_PAYLOAD (10_state.md R15). -/
  pavailBound : s.block.pavail.toNat ≤ s.cfg.maxPayload
  /-- The buffer's list is in its canonical form. -/
  bufferCanonical : s.block.fbuf.wf
  /-- FBUF is indexed 0 to BUF_SIZE - 1 (10_state.md R16). -/
  bufferInside : ∀ c ∈ s.block.fbuf, c.1 < s.cfg.bufSize
  /-- RXV and TXV are never both 1: the command that sets one clears the other (10_state.md R18, R19). -/
  validityExclusive : ¬(s.block.rxv = true ∧ s.block.txv = true)

/-! ## The wire form of a header -/

/-- The bytes of a field, most significant first. -/
def bytes32 (v : Word) : List Byte :=
  [v.extractLsb' 24 8, v.extractLsb' 16 8, v.extractLsb' 8 8, v.extractLsb' 0 8]

/-- The bytes of a flag field, most significant first. -/
def bytes16 (v : Half) : List Byte := [v.extractLsb' 8 8, v.extractLsb' 0 8]

/-- "For ENDIAN = LITTLE each field's bytes are reversed within the field" (30_encoding.md R45). -/
def inOrder (e : Endian) (bs : List Byte) : List Byte :=
  match e with
  | .big => bs
  | .little => bs.reverse

/-- The 16 bytes of a header: sequence(4) acknowledgement(4) fin(2) corrupted(2) length(4) (30_encoding.md R45). -/
def wireHeader (e : Endian) (h : Header) : List Byte :=
  inOrder e (bytes32 h.seq) ++ inOrder e (bytes32 h.ack) ++ inOrder e (bytes16 h.fin) ++ inOrder e (bytes16 h.cor)
    ++ inOrder e (bytes32 h.len)

/-- FBUF[0..15] hold exactly these bytes. -/
def HeaderBytes (m : Memory) (bs : List Byte) : Prop := ∀ k, k < 16 → m.read k = bs[k]?

/-- Every byte of FBUF[0..15] has a value. -/
def HeaderValued (m : Memory) : Prop := ∀ k, k < 16 → m.read k ≠ none

/-! ## What the validity bits promise (10_state.md R17) -/

/-- RXV: "the field registers and PAVAIL hold the result of a successful DECODE". -/
def RxvMeans (s : State) : Prop :=
  s.block.rxv = true →
    HeaderBytes s.block.fbuf (wireHeader s.cfg.endian s.block.header) ∧ 16 ≤ s.block.flen.toNat ∧
      s.block.pavail.toNat = s.block.flen.toNat - 16

/-- TXV: "FBUF[0..FLEN) holds the frame ENCODE built": the field registers' header, its corrupted field COR or forced
to 1, and the counts of the extent. -/
def TxvMeans (s : State) : Prop :=
  s.block.txv = true →
    (HeaderBytes s.block.fbuf (wireHeader s.cfg.endian s.block.header) ∨
      HeaderBytes s.block.fbuf (wireHeader s.cfg.endian { s.block.header with cor := 0x0001#16 })) ∧
      s.block.flen.toNat = 16 + min s.block.len.toNat s.cfg.maxPayload ∧
      s.block.pavail.toNat = min s.block.len.toNat s.cfg.maxPayload

/-- Every sticky bit that is set has its raise in the log. -/
def ErrorsLogged (s : State) : Prop := ∀ e, s.block.errorBit e = true → Cause.error e ∈ s.raised

/-- s' differs from s in the three sticky bits and in the answers so far, at most: in nothing else of the block, not in the
parameters, the inputs still to come or the log of errors. -/
def AgreeButErrors (s s' : State) : Prop :=
  s' = { s with
    block := { s.block with eMalf := s'.block.eMalf, eIll := s'.block.eIll, eOvr := s'.block.eOvr }
    answers := s'.answers }

/-! ## The host's accesses -/

/-- MemRead(off, n): offsets are from HC_BASE (00_scope.md R5, section 5). -/
def memRead (w : Width) (off : Nat) (s : State) : Result := access (.read w (s.cfg.base + off)) s

/-- MemWrite(off, n, v). -/
def memWrite (w : Width) (off : Nat) (v : Word) (s : State) : Result := access (.write w (s.cfg.base + off) v) s

/-- The input is MemWrite(off, 4, v). -/
def Writes32 (c : Config) (x : HostInput) (off : Nat) (v : Word) : Prop :=
  x = .access (.write .w32 (c.base + off) v)

/-- The input writes the command word w to CMD. -/
def IsCommand (c : Config) (x : HostInput) (w : Word) : Prop := Writes32 c x 0x000 w

/-- The input writes SEQ, ACK, FIN, COR, LEN or FLEN, or a byte of FBUF: the accesses that clear RXV and TXV
(10_state.md R18, R19). -/
def WritesFrame (c : Config) (x : HostInput) : Prop :=
  (∃ off v, (off = 0x008 ∨ off = 0x00C ∨ off = 0x010 ∨ off = 0x014 ∨ off = 0x018 ∨ off = 0x01C) ∧
      Writes32 c x off v) ∨
    ∃ i v, i < c.bufSize ∧ x = .access (.write .w8 (c.base + (0x400 + i)) v)

/-- The five legal command words (30_encoding.md R49). -/
def LegalWord (w : Word) : Prop :=
  w = 0x00000000#32 ∨ w = 0x00000001#32 ∨ w = 0x00000011#32 ∨ w = 0x00000002#32 ∨ w = 0x00000003#32

end Sys2Proof.Machine
end

