-- ==== Sys2Proof/Certificates/Slice0/Obligations.lean ====
section
/-! DEFINITION. The statements for the provers. Each docstring names the rule of spec/ it formalises. Where a statement
speaks of `inputs`, `answers` or `raised`, those are the model's own fields (notes/assumptions/3.md to 5.md): the host's
accesses still to come, the block's answers, and the log of errors. -/

open Sys2Proof Sys2Proof.Machine

/-! ## Encodings (30_encoding.md) -/

/-- R49: each of the five words, by equality on the whole word, is its command, and no other word is one. -/
def Obligations.CommandWordsDecodeByEquality : Prop :=
  ∀ w : Word,
    (decodeCmd w = .ok .nop ↔ w = 0x00000000#32) ∧ (decodeCmd w = .ok .encode ↔ w = 0x00000001#32) ∧
      (decodeCmd w = .ok .encodeFc ↔ w = 0x00000011#32) ∧ (decodeCmd w = .ok .decode ↔ w = 0x00000002#32) ∧
        (decodeCmd w = .ok .clear ↔ w = 0x00000003#32) ∧ ((∃ i, decodeCmd w = .ok i) ↔ LegalWord w)

/-- The fields of 30_encoding.md section 2 against the whole-word decoder: a word is legal exactly when RSV = 0, OP ≤ 3 and
FC = 1 only with OP = 1. Which name an illegal word is rejected by is the model's choice (notes/assumptions/12.md). -/
def Obligations.CommandFieldsDecideLegality : Prop :=
  ∀ w : Word,
    ((∃ i, decodeCmd w = .ok i) ↔ cmdRsv w = 0 ∧ (cmdOp w).toNat ≤ 3 ∧ (cmdFc w = true → cmdOp w = 1)) ∧
      (decodeCmd w = .error .reservedBitsSet ↔ cmdRsv w ≠ 0) ∧
        (decodeCmd w = .error .reservedOp ↔ cmdRsv w = 0 ∧ 4 ≤ (cmdOp w).toNat) ∧
          (decodeCmd w = .error .fcWithoutEncode ↔
            cmdRsv w = 0 ∧ (cmdOp w).toNat ≤ 3 ∧ cmdFc w = true ∧ cmdOp w ≠ 1)

/-- Every command's word decodes back to it, through the decoder and through the table's entry point. -/
def Obligations.EncodedCommandDecodesBack : Prop :=
  ∀ i : Instr, decodeCmd (encodeCmd i) = .ok i ∧ decodeTableWord 32 (encodeCmd i).toNat = some i

/-- R50: OP in 4 to 15, FC = 1 with OP other than 1, or a set RSV bit makes a word illegal; an illegal word raises E_ILL
and does nothing else. -/
def Obligations.IllegalWordOnlyRaisesEIll : Prop :=
  (∀ w : Word, (4 ≤ (cmdOp w).toNat ∨ (cmdFc w = true ∧ cmdOp w ≠ 1) ∨ cmdRsv w ≠ 0) ↔ ¬LegalWord w) ∧
    ∀ (s : State) (w : Word), ¬LegalWord w →
      memWrite .w32 0x000 w s =
        .next { s with
          block := { s.block with eIll := true }
          raised := .error .ill :: s.raised
          answers := .done :: s.answers }

/-! ## The step -/

/-- When the host's next input writes a command word to CMD, the step is that command at the state with the input taken,
and the write answered. The second clause says so of withFetchWord. The input queue is the model's
(notes/assumptions/3.md). -/
def Obligations.StepRunsTheDecodedCommand : Prop :=
  (∀ (s : State) (w : Word) (i : Instr) (rest : List HostInput),
      s.inputs = .access (.write .w32 (s.cfg.base + 0x000) w) :: rest → decodeCmd w = .ok i →
        step s = answerDone (exec i { s with inputs := rest })) ∧
    ∀ (s : State) (i : Instr), step (s.withFetchWord 32 (encodeCmd i).toNat) = answerDone (exec i s)

/-- Accesses are performed one at a time in the host's order: a step takes exactly the first input, answers it exactly
once when it is an access, never touches the parameters, and with no input changes nothing. -/
def Obligations.StepPerformsOneInputInOrder : Prop :=
  ∀ s t : State, step s = .next t →
    t.cfg = s.cfg ∧ t.inputs = s.inputs.tail ∧ (s.inputs = [] → t = s) ∧
      (∀ a rest, s.inputs = .access a :: rest → ∃ r, t.answers = r :: s.answers) ∧
        (∀ rest, s.inputs = .reset :: rest → t.answers = s.answers)

/-- A step ends in a next state, in the fault UndefinedByte, or, for an access outside the window, in the model's own
fault (notes/assumptions/6.md). It is never refused. -/
def Obligations.StepCompletesOrFaultsByName : Prop :=
  ∀ s : State,
    (∃ t, step s = .next t) ∨ step s = .fault .undefinedByte ∨
      (step s = .fault .outsideWindow ∧
        ∃ a rest, s.inputs = .access a :: rest ∧ ¬(s.cfg.base ≤ a.addr ∧ a.addr < s.cfg.base + 0x1000))

/-! ## Control commands (42_control.md) -/

/-- R67: NOP changes nothing. -/
def Obligations.NopChangesNothing : Prop := ∀ s : State, exec .nop s = .next s

/-- R68: CLEAR returns every register and flag to 0, keeps every byte of FBUF, and STATUS reads 0; the state differs from
the one after reset in FBUF alone; a DECODE directly after it fails with E_MALF. -/
def Obligations.ClearResetsAllButTheBuffer : Prop :=
  ∀ s : State, ∃ t, exec .clear s = .next t ∧
    t = { s with
      block :=
        { s.block with
          seq := 0x00000000#32, ack := 0x00000000#32, fin := 0x0000#16, cor := 0x0000#16, len := 0x00000000#32
          flen := 0#32, pavail := 0#32, rxv := false, txv := false, eMalf := false, eIll := false, eOvr := false } } ∧
      statusWord t.cfg t.block = 0x00000000#32 ∧
        t.block = { s.hardwareReset.block with fbuf := s.block.fbuf } ∧
          ∃ u, exec .decode t = .next u ∧ u.block.eMalf = true ∧ u.block.rxv = false

/-! ## The serializer (40_serializer.md) -/

/-- R54: from every state ENCODE and ENCODE.FC put the wire form of the five registers, the corrupted field forced to 1
with FC, into FBUF[0..15], set FLEN, PAVAIL, TXV and RXV, and change nothing else; a second one changes nothing (in a
buffer of canonical form). -/
def Obligations.EncodeBuildsTheFrame : Prop :=
  ∀ (s : State) (i : Instr), i = .encode ∨ i = .encodeFc → ∃ t, exec i s = .next t ∧
    HeaderBytes t.block.fbuf (wireHeader s.cfg.endian
      { s.block.header with cor := if i = .encodeFc then 0x0001#16 else s.block.cor }) ∧
      (∀ a, 16 ≤ a → t.block.fbuf.read a = s.block.fbuf.read a) ∧
        t = { s with
          block :=
            { s.block with
              fbuf := t.block.fbuf
              flen := 16#32 + BitVec.ofNat 32 (min s.block.len.toNat s.cfg.maxPayload)
              pavail := BitVec.ofNat 32 (min s.block.len.toNat s.cfg.maxPayload)
              txv := true
              rxv := false } } ∧
          (s.block.fbuf.wf → exec i t = .next t)

/-- R56: ENCODE.FC is ENCODE with 0x0001 in the corrupted field of the outgoing bytes, whatever COR holds; COR itself is
unchanged; with COR = 1 it is exactly ENCODE; a DECODE directly after it loads COR = 1; and FC with OP other than 1 is
illegal. -/
def Obligations.EncodeFcForcesTheCorruptedField : Prop :=
  (∀ s : State, ∃ t, exec .encodeFc s = .next t ∧
    HeaderBytes t.block.fbuf (wireHeader s.cfg.endian { s.block.header with cor := 0x0001#16 }) ∧
      (∀ a, 16 ≤ a → t.block.fbuf.read a = s.block.fbuf.read a) ∧
        t = { s with
          block :=
            { s.block with
              fbuf := t.block.fbuf
              flen := 16#32 + BitVec.ofNat 32 (min s.block.len.toNat s.cfg.maxPayload)
              pavail := BitVec.ofNat 32 (min s.block.len.toNat s.cfg.maxPayload)
              txv := true
              rxv := false } } ∧
          (∀ c, exec .encodeFc { s with block := { s.block with cor := c } } =
            .next { t with block := { t.block with cor := c } }) ∧
            (s.block.cor = 0x0001#16 → exec .encode s = .next t) ∧
              (s.cfg.wf = true → ∃ u, exec .decode t = .next u ∧ u.block.cor = 0x0001#16)) ∧
    ∀ w : Word, cmdFc w = true → cmdOp w ≠ 1 → ¬LegalWord w

/-- R55: after ENCODE or ENCODE.FC, PAVAIL is min(LEN, MAX_PAYLOAD) and FLEN is 16 more, never past the buffer; LEN is
serialized unchanged, and STATUS.LENOVR reports it when it is above MAX_PAYLOAD; the payload bytes are what they were;
and one of them that is ⊥ makes the host's read of it the fault UndefinedByte. -/
def Obligations.PayloadExtentBoundsTheFrame : Prop :=
  ∀ (s : State) (i : Instr), i = .encode ∨ i = .encodeFc → s.cfg.wf = true → ∃ t, exec i s = .next t ∧
    t.block.pavail.toNat = min s.block.len.toNat s.cfg.maxPayload ∧
      t.block.flen.toNat = 16 + min s.block.len.toNat s.cfg.maxPayload ∧ t.block.flen.toNat ≤ s.cfg.bufSize ∧
        get32 s.cfg.endian 12 t.block.fbuf = some s.block.len ∧
          ((statusWord t.cfg t.block).getLsbD 6 = true ↔ s.cfg.maxPayload < s.block.len.toNat) ∧
            ∀ a, 16 ≤ a → t.block.fbuf.read a = s.block.fbuf.read a ∧
              (a < t.block.flen.toNat → s.block.fbuf.read a = none →
                memRead .w8 (0x400 + a) t = .fault .undefinedByte)

/-- R46: the outgoing frame FBUF[0 .. FLEN) is the header's 16 bytes and then min(LEN, MAX_PAYLOAD) payload bytes as they
stood in the buffer; the header carries LEN unchanged. -/
def Obligations.OutgoingFrameIsHeaderThenPayload : Prop :=
  ∀ s : State, s.cfg.wf = true →
    (∃ t, exec .encode s = .next t ∧
      t.block.frame = (wireHeader s.cfg.endian s.block.header).map some ++
        (List.range (min s.block.len.toNat s.cfg.maxPayload)).map fun k => s.block.fbuf.read (16 + k)) ∧
      ∃ t, exec .encodeFc s = .next t ∧
        t.block.frame = (wireHeader s.cfg.endian { s.block.header with cor := 0x0001#16 }).map some ++
          (List.range (min s.block.len.toNat s.cfg.maxPayload)).map fun k => s.block.fbuf.read (16 + k)

/-- R57: ENCODE and ENCODE.FC complete from every state, raise nothing, and write none of SEQ, ACK, FIN, COR, LEN, the
sticky bits or FBUF[16 .. BUF_SIZE). -/
def Obligations.EncodeHasNoErrorPath : Prop :=
  ∀ (s : State) (i : Instr), i = .encode ∨ i = .encodeFc → ∃ t, exec i s = .next t ∧
    t.block.header = s.block.header ∧ t.block.eMalf = s.block.eMalf ∧ t.block.eIll = s.block.eIll ∧
      t.block.eOvr = s.block.eOvr ∧ t.raised = s.raised ∧ t.cfg = s.cfg ∧ t.inputs = s.inputs ∧
        t.answers = s.answers ∧ ∀ a, 16 ≤ a → t.block.fbuf.read a = s.block.fbuf.read a

/-! ## The deserializer (41_deserializer.md) -/

/-- R58: with FLEN ≥ 16 and FBUF[0..15] valued, DECODE loads the fields whose wire form those bytes are, PAVAIL becomes
FLEN - 16, RXV is set and TXV cleared, nothing else changes, and a second DECODE changes nothing. With FLEN ≥ 16 and a
byte of FBUF[0..15] that is ⊥ it is the fault UndefinedByte; with FLEN < 16 it raises E_MALF. -/
def Obligations.DecodeLoadsTheHeader : Prop :=
  ∀ s : State,
    (16 ≤ s.block.flen.toNat → HeaderValued s.block.fbuf → ∃ t, exec .decode s = .next t ∧
      HeaderBytes s.block.fbuf (wireHeader s.cfg.endian t.block.header) ∧
        t = { s with
          block :=
            { s.block with
              seq := t.block.seq
              ack := t.block.ack
              fin := t.block.fin
              cor := t.block.cor
              len := t.block.len
              pavail := s.block.flen - 16#32
              rxv := true
              txv := false } } ∧
          t.block.pavail.toNat = s.block.flen.toNat - 16 ∧ exec .decode t = .next t) ∧
      (16 ≤ s.block.flen.toNat → ¬HeaderValued s.block.fbuf → exec .decode s = .fault .undefinedByte) ∧
        (s.block.flen.toNat < 16 → ∃ t, exec .decode s = .next t ∧ t.block.eMalf = true)

/-- R59: a DECODE with FLEN < 16 raises E_MALF, clears PAVAIL, RXV and TXV, and leaves SEQ to LEN, FLEN, FBUF and the other
sticky bits as they were, whatever FBUF holds. -/
def Obligations.ShortFrameDecodeFails : Prop :=
  ∀ s : State, s.block.flen.toNat < 16 →
    exec .decode s =
      .next { s with
        block := { s.block with eMalf := true, pavail := 0#32, rxv := false, txv := false }
        raised := .error .malf :: s.raised }

/-- DECODE looks at nothing but FLEN and FBUF[0..15] (41_deserializer.md section on DECODE): two states that agree on these,
and on the byte order, decode to the same fields, PAVAIL, RXV and TXV, or both fault, whatever else they hold. -/
def Obligations.DecodeReadsOnlyTheHeader : Prop :=
  ∀ s s' : State, s'.cfg.endian = s.cfg.endian → s'.block.flen = s.block.flen → 16 ≤ s.block.flen.toNat →
    (∀ k, k < 16 → s'.block.fbuf.read k = s.block.fbuf.read k) →
      (exec .decode s = .fault .undefinedByte ∧ exec .decode s' = .fault .undefinedByte) ∨
        ∃ t t', exec .decode s = .next t ∧ exec .decode s' = .next t' ∧ t'.block.header = t.block.header ∧
          t'.block.pavail = t.block.pavail ∧ t'.block.rxv = t.block.rxv ∧ t'.block.txv = t.block.txv ∧
            t.raised = s.raised ∧ t'.raised = s'.raised

/-- R66: for every value of the five fields, ENCODE or ENCODE.FC, then any accesses that write no field register, not FLEN
and not FBUF[0..15], then DECODE: SEQ, ACK, FIN, LEN and FLEN are as ENCODE left them, COR is as it was (1 for ENCODE.FC),
PAVAIL = min(LEN, MAX_PAYLOAD), RXV = 1, TXV = 0, and nothing is raised. -/
def Obligations.HeaderRoundTrip : Prop :=
  ∀ (s : State) (i : Instr), i = .encode ∨ i = .encodeFc → s.cfg.wf = true → ∃ t, exec i s = .next t ∧
    ∀ t' : State, t'.cfg = t.cfg → t'.block.header = t.block.header → t'.block.flen = t.block.flen →
      (∀ k, k < 16 → t'.block.fbuf.read k = t.block.fbuf.read k) →
        ∃ u, exec .decode t' = .next u ∧ u.block.seq = s.block.seq ∧ u.block.ack = s.block.ack ∧
          u.block.fin = s.block.fin ∧ u.block.cor = (if i = .encodeFc then 0x0001#16 else s.block.cor) ∧
            u.block.len = s.block.len ∧ u.block.flen = t.block.flen ∧
              u.block.pavail.toNat = min s.block.len.toNat s.cfg.maxPayload ∧ u.block.rxv = true ∧
                u.block.txv = false ∧ u.block.eMalf = t'.block.eMalf ∧ u.block.eIll = t'.block.eIll ∧
                  u.block.eOvr = t'.block.eOvr ∧ u.raised = t'.raised

/-- No command touches the parameters, the host's inputs or the answers, and the one error a command can raise is
DECODE's E_MALF. -/
def Obligations.CommandsTouchOnlyTheBlock : Prop :=
  ∀ (i : Instr) (s t : State), exec i s = .next t →
    t.cfg = s.cfg ∧ t.inputs = s.inputs ∧ t.answers = s.answers ∧
      (t.raised = s.raised ∨ (i = .decode ∧ s.block.flen.toNat < 16 ∧ t.raised = .error .malf :: s.raised))

/-! ## Host accesses (20_memory.md) -/

/-- R32: every register read answers its value and has no effect; reading again with no write between answers the same. -/
def Obligations.RegisterReadsAnswerTheirValues : Prop :=
  (∀ s : State,
    memRead .w32 0x000 s = .next { s with answers := .word 0x00000000#32 :: s.answers } ∧
      memRead .w32 0x004 s = .next { s with answers := .word (statusWord s.cfg s.block) :: s.answers } ∧
        memRead .w32 0x008 s = .next { s with answers := .word s.block.seq :: s.answers } ∧
          memRead .w32 0x00C s = .next { s with answers := .word s.block.ack :: s.answers } ∧
            memRead .w32 0x010 s = .next { s with answers := .word (s.block.fin.setWidth 32) :: s.answers } ∧
              memRead .w32 0x014 s = .next { s with answers := .word (s.block.cor.setWidth 32) :: s.answers } ∧
                memRead .w32 0x018 s = .next { s with answers := .word s.block.len :: s.answers } ∧
                  memRead .w32 0x01C s = .next { s with answers := .word s.block.flen :: s.answers } ∧
                    memRead .w32 0x020 s = .next { s with answers := .word s.block.pavail :: s.answers } ∧
                      memRead .w32 0x024 s = .next { s with answers := .word (cfgWord s.cfg) :: s.answers }) ∧
    ∀ (s : State) (off : Nat), off < 0x400 → off % 4 = 0 → ∃ v,
      memRead .w32 off s = .next { s with answers := .word v :: s.answers } ∧
        memRead .w32 off { s with answers := .word v :: s.answers } =
          .next { s with answers := .word v :: .word v :: s.answers }

/-- No read, of whatever width and address, changes the block, and a read that is answered is answered the same when it
is done again. -/
def Obligations.ReadsChangeNoState : Prop :=
  ∀ (w : Width) (addr : Nat) (s t : State), access (.read w addr) s = .next t →
    t.block = s.block ∧ t.cfg = s.cfg ∧ t.inputs = s.inputs ∧ ∃ r, t.answers = r :: s.answers ∧
      ∃ u, access (.read w addr) t = .next u ∧ u.answers = r :: t.answers ∧ u.block = s.block

/-- R33: a write to CMD runs the command its word encodes, and any other word raises E_ILL. -/
def Obligations.CommandPortRunsTheCommand : Prop :=
  ∀ s : State,
    memWrite .w32 0x000 0x00000000#32 s = answerDone (exec .nop s) ∧
      memWrite .w32 0x000 0x00000001#32 s = answerDone (exec .encode s) ∧
        memWrite .w32 0x000 0x00000011#32 s = answerDone (exec .encodeFc s) ∧
          memWrite .w32 0x000 0x00000002#32 s = answerDone (exec .decode s) ∧
            memWrite .w32 0x000 0x00000003#32 s = answerDone (exec .clear s) ∧
              ∀ w, ¬LegalWord w → memWrite .w32 0x000 w s = answerDone (.next (s.raise .ill))

/-- R34: a write to STATUS clears the sticky bits whose positions are 1 in the value and changes nothing else. -/
def Obligations.StatusWriteClearsStickyBits : Prop :=
  ∀ (s : State) (v : Word),
    memWrite .w32 0x004 v s =
      .next { s with
        block :=
          { s.block with
            eMalf := if v.getLsbD 8 = true then false else s.block.eMalf
            eIll := if v.getLsbD 9 = true then false else s.block.eIll
            eOvr := if v.getLsbD 10 = true then false else s.block.eOvr }
        answers := .done :: s.answers }

/-- R35: a write to SEQ, ACK or LEN keeps all 32 bits, whatever they are, and clears RXV and TXV. -/
def Obligations.WordRegisterWritesKeepAllBits : Prop :=
  ∀ (s : State) (v : Word),
    memWrite .w32 0x008 v s =
        .next { s with block := { s.block with seq := v, rxv := false, txv := false }, answers := .done :: s.answers } ∧
      memWrite .w32 0x00C v s =
          .next { s with block := { s.block with ack := v, rxv := false, txv := false }, answers := .done :: s.answers } ∧
        memWrite .w32 0x018 v s =
          .next { s with block := { s.block with len := v, rxv := false, txv := false }, answers := .done :: s.answers }

/-- R36: a write to FIN or COR keeps bits 15:0, whatever they are, ignores bits 31:16, and clears RXV and TXV. -/
def Obligations.FlagRegisterWritesKeepLowHalf : Prop :=
  ∀ (s : State) (v : Word),
    memWrite .w32 0x010 v s =
        .next { s with
          block := { s.block with fin := v.extractLsb' 0 16, rxv := false, txv := false }
          answers := .done :: s.answers } ∧
      memWrite .w32 0x014 v s =
        .next { s with
          block := { s.block with cor := v.extractLsb' 0 16, rxv := false, txv := false }
          answers := .done :: s.answers }

/-- R37: a write to FLEN above BUF_SIZE (unsigned) stores BUF_SIZE and raises E_OVR; any other stores the value; both clear
RXV and TXV and leave PAVAIL. -/
def Obligations.FlenWriteClampsToTheBuffer : Prop :=
  ∀ (s : State) (v : Word),
    (s.cfg.bufSize < v.toNat → ∃ n : Word, n.toNat = s.cfg.bufSize ∧
      memWrite .w32 0x01C v s =
        .next { s with
          block := { s.block with flen := n, rxv := false, txv := false, eOvr := true }
          raised := .error .ovr :: s.raised
          answers := .done :: s.answers }) ∧
      (v.toNat ≤ s.cfg.bufSize →
        memWrite .w32 0x01C v s =
          .next { s with
            block := { s.block with flen := v, rxv := false, txv := false }
            answers := .done :: s.answers })

/-- R38: a write to PAVAIL or CFG is ignored. -/
def Obligations.ReadOnlyRegistersIgnoreWrites : Prop :=
  ∀ (s : State) (v : Word),
    memWrite .w32 0x020 v s = .next { s with answers := .done :: s.answers } ∧
      memWrite .w32 0x024 v s = .next { s with answers := .done :: s.answers }

/-- R39: a byte write at 0x400 + i, i < BUF_SIZE, stores v[7:0] to FBUF[i], leaves every other byte, and clears RXV and
TXV, for a header and a payload byte alike; a byte read there answers the byte, or is the fault UndefinedByte where it
is ⊥, and changes nothing. -/
def Obligations.FrameByteAccess : Prop :=
  ∀ (s : State) (i : Nat), s.cfg.wf = true → i < s.cfg.bufSize →
    (∀ v : Word, ∃ t, memWrite .w8 (0x400 + i) v s = .next t ∧
      t.block.fbuf.read i = some (v.extractLsb' 0 8) ∧ (∀ a, a ≠ i → t.block.fbuf.read a = s.block.fbuf.read a) ∧
        t = { s with
          block := { s.block with fbuf := t.block.fbuf, rxv := false, txv := false }
          answers := .done :: s.answers }) ∧
      (∀ b, s.block.fbuf.read i = some b →
        memRead .w8 (0x400 + i) s = .next { s with answers := .byte b :: s.answers }) ∧
        (s.block.fbuf.read i = none → memRead .w8 (0x400 + i) s = .fault .undefinedByte)

/-- R30: a 32-bit aligned access at 0x028 to 0x3FC reads 0, and a write there is ignored. -/
def Obligations.ReservedRegistersReadZero : Prop :=
  ∀ (s : State) (off : Nat), 0x028 ≤ off → off ≤ 0x3FC → off % 4 = 0 →
    memRead .w32 off s = .next { s with answers := .word 0x00000000#32 :: s.answers } ∧
      ∀ v, memWrite .w32 off v s = .next { s with answers := .done :: s.answers }

/-- R31: a byte access at 0x400 + i, i ≥ BUF_SIZE, within the window, reads 0x00, and a write there is ignored. -/
def Obligations.BufferTailReadsZero : Prop :=
  ∀ (s : State) (i : Nat), s.cfg.bufSize ≤ i → 0x400 + i ≤ 0xFFF →
    memRead .w8 (0x400 + i) s = .next { s with answers := .byte 0x00#8 :: s.answers } ∧
      ∀ v, memWrite .w8 (0x400 + i) v s = .next { s with answers := .done :: s.answers }

/-- R28: in the register window every access but a 32-bit one at a multiple of 4 is a bus error that changes no state of
the block; it is answered so and logged (notes/assumptions/5.md). -/
def Obligations.RegisterWindowTakesAlignedWordsOnly : Prop :=
  ∀ (s : State) (w : Width) (off : Nat), off < 0x400 → ¬(w = .w32 ∧ off % 4 = 0) →
    memRead w off s = .next { s with answers := .busError :: s.answers, raised := .busError :: s.raised } ∧
      ∀ v, memWrite w off v s = .next { s with answers := .busError :: s.answers, raised := .busError :: s.raised }

/-- R29: in the buffer window an access of width 2 or 4 is a bus error that changes no state of the block, and a byte
access at any offset is none. -/
def Obligations.BufferWindowTakesBytesOnly : Prop :=
  ∀ (s : State) (w : Width) (off : Nat), 0x400 ≤ off → off ≤ 0xFFF →
    (w ≠ .w8 →
      memRead w off s = .next { s with answers := .busError :: s.answers, raised := .busError :: s.raised } ∧
        ∀ v, memWrite w off v s =
          .next { s with answers := .busError :: s.answers, raised := .busError :: s.raised }) ∧
      ((∃ b, memRead .w8 off s = .next { s with answers := .byte b :: s.answers }) ∨
          memRead .w8 off s = .fault .undefinedByte) ∧
        ∀ v, ∃ t, memWrite .w8 off v s = .next t ∧ t.answers = .done :: s.answers ∧ t.raised = s.raised

/-- An access outside the window is the model's fault outsideWindow: the spec gives such an access no meaning, and the
stop is the model's choice (notes/assumptions/6.md). -/
def Obligations.AccessOutsideTheWindowFaults : Prop :=
  ∀ (s : State) (a : Access), a.addr < s.cfg.base ∨ s.cfg.base + 0x1000 ≤ a.addr →
    access a s = .fault .outsideWindow

/-- R41: a field read is the bytes shifted into place in the order ENDIAN, has no value exactly when one of its bytes has
none, and undoes a field write, for every value and both orders. -/
def Obligations.FieldReadUndoesFieldWrite : Prop :=
  ∀ (i : Nat) (m : Memory),
    (∀ b0 b1 b2 b3, m.read i = some b0 → m.read (i + 1) = some b1 → m.read (i + 2) = some b2 →
      m.read (i + 3) = some b3 →
        get32 .big i m = some (b0.setWidth 32 <<< 24 ||| b1.setWidth 32 <<< 16 ||| b2.setWidth 32 <<< 8 ||| b3.setWidth 32) ∧
          get32 .little i m =
            some (b3.setWidth 32 <<< 24 ||| b2.setWidth 32 <<< 16 ||| b1.setWidth 32 <<< 8 ||| b0.setWidth 32)) ∧
      (∀ b0 b1, m.read i = some b0 → m.read (i + 1) = some b1 →
        get16 .big i m = some (b0.setWidth 16 <<< 8 ||| b1.setWidth 16) ∧
          get16 .little i m = some (b1.setWidth 16 <<< 8 ||| b0.setWidth 16)) ∧
        ∀ e : Endian,
          (get32 e i m = none ↔ ∃ k, k < 4 ∧ m.read (i + k) = none) ∧
            (get16 e i m = none ↔ ∃ k, k < 2 ∧ m.read (i + k) = none) ∧
              (∀ v, get32 e i (put32 e i v m) = some v) ∧ ∀ v, get16 e i (put16 e i v m) = some v

/-! ## STATUS and CFG (10_state.md, 41_deserializer.md) -/

/-- R61 to R64, with the rest of the layout of 10_state.md section 5: every bit of what a STATUS read answers. FINF and CORF
are FIN = 1 and COR = 1, FIN_NC and COR_NC any value but 0 and 1, computed from the registers at the read. -/
def Obligations.StatusBitsReportTheRegisters : Prop :=
  ∀ s : State, ∃ w : Word,
    memRead .w32 0x004 s = .next { s with answers := .word w :: s.answers } ∧
      (w.getLsbD 2 = true ↔ s.block.fin = 0x0001#16) ∧ (w.getLsbD 3 = true ↔ s.block.cor = 0x0001#16) ∧
        (w.getLsbD 4 = true ↔ s.block.fin ≠ 0x0000#16 ∧ s.block.fin ≠ 0x0001#16) ∧
          (w.getLsbD 5 = true ↔ s.block.cor ≠ 0x0000#16 ∧ s.block.cor ≠ 0x0001#16) ∧
            (w.getLsbD 6 = true ↔ s.cfg.maxPayload < s.block.len.toNat) ∧ w.getLsbD 0 = s.block.rxv ∧
              w.getLsbD 1 = s.block.txv ∧ w.getLsbD 8 = s.block.eMalf ∧ w.getLsbD 9 = s.block.eIll ∧
                w.getLsbD 10 = s.block.eOvr ∧ ∀ k, k = 7 ∨ 11 ≤ k → w.getLsbD k = false

/-- R21: the fields of what a CFG read answers, its value in the reference machine, and that a write to CFG is ignored. -/
def Obligations.ConfigWordHoldsTheParameters : Prop :=
  (∀ s : State, s.cfg.wf = true → ∃ w : Word,
    memRead .w32 0x024 s = .next { s with answers := .word w :: s.answers } ∧
      (w.extractLsb' 0 16).toNat = s.cfg.maxPayload ∧ w.extractLsb' 16 8 = 0x10#8 ∧
        (w.getLsbD 24 = true ↔ s.cfg.endian = .big) ∧ w.extractLsb' 25 3 = 0#3 ∧ w.extractLsb' 28 4 = 0x1#4) ∧
    memRead .w32 0x024 State.reset = .next { State.reset with answers := [.word 0x11100400#32] } ∧
      ∀ (s : State) (v : Word), memWrite .w32 0x024 v s = .next { s with answers := .done :: s.answers }

/-! ## Errors (60_exceptions.md) -/

/-- A raise sets its own sticky bit to 1, whatever it was, and changes nothing else of the block; the log of raises is the
model's (notes/assumptions/5.md). -/
def Obligations.RaiseSetsItsBitOnly : Prop :=
  ∀ s : State,
    s.raise .malf = { s with block := { s.block with eMalf := true }, raised := .error .malf :: s.raised } ∧
      s.raise .ill = { s with block := { s.block with eIll := true }, raised := .error .ill :: s.raised } ∧
        s.raise .ovr = { s with block := { s.block with eOvr := true }, raised := .error .ovr :: s.raised }

/-- R70: E_MALF goes from 0 to 1 exactly in a step that performs a DECODE with FLEN < 16; a DECODE with FLEN ≥ 16 that
completes succeeds with E_MALF as it was. -/
def Obligations.MalformedHeaderOnlyFromShortDecode : Prop :=
  (∀ (s t : State) (x : HostInput) (rest : List HostInput), s.inputs = x :: rest → step s = .next t →
    s.block.eMalf = false →
      (t.block.eMalf = true ↔ IsCommand s.cfg x 0x00000002#32 ∧ s.block.flen.toNat < 16)) ∧
    ∀ s t : State, 16 ≤ s.block.flen.toNat → exec .decode s = .next t →
      t.block.rxv = true ∧ t.block.eMalf = s.block.eMalf

/-- R71: E_ILL goes from 0 to 1 exactly in a step that writes an illegal word to CMD, and such a step has no other effect
on the block. -/
def Obligations.IllegalCommandOnlyFromIllegalWord : Prop :=
  ∀ (s t : State) (x : HostInput) (rest : List HostInput), s.inputs = x :: rest → step s = .next t →
    (s.block.eIll = false → (t.block.eIll = true ↔ ∃ w, ¬LegalWord w ∧ IsCommand s.cfg x w)) ∧
      ∀ w, ¬LegalWord w → IsCommand s.cfg x w → t.block = { s.block with eIll := true }

/-- R72: E_OVR goes from 0 to 1 exactly in a step that writes FLEN a value above BUF_SIZE, and such a step leaves
FLEN = BUF_SIZE. -/
def Obligations.OverrunOnlyFromLongFlen : Prop :=
  ∀ (s t : State) (x : HostInput) (rest : List HostInput), s.inputs = x :: rest → step s = .next t →
    (s.block.eOvr = false →
      (t.block.eOvr = true ↔ ∃ v : Word, s.cfg.bufSize < v.toNat ∧ Writes32 s.cfg x 0x01C v)) ∧
      ∀ v : Word, s.cfg.bufSize < v.toNat → Writes32 s.cfg x 0x01C v →
        t.block.eOvr = true ∧ t.block.flen.toNat = s.cfg.bufSize

/-- A sticky bit that is 1 becomes 0 exactly by a STATUS write with 1 at its position, by CLEAR or by reset
(60_exceptions.md section 4). -/
def Obligations.StickyBitsClearedOnlyByTheHost : Prop :=
  ∀ (s t : State) (x : HostInput) (rest : List HostInput), s.inputs = x :: rest → step s = .next t →
    (s.block.eMalf = true → (t.block.eMalf = false ↔
      (∃ v, v.getLsbD 8 = true ∧ Writes32 s.cfg x 0x004 v) ∨ IsCommand s.cfg x 0x00000003#32 ∨ x = .reset)) ∧
      (s.block.eIll = true → (t.block.eIll = false ↔
        (∃ v, v.getLsbD 9 = true ∧ Writes32 s.cfg x 0x004 v) ∨ IsCommand s.cfg x 0x00000003#32 ∨ x = .reset)) ∧
        (s.block.eOvr = true → (t.block.eOvr = false ↔
          (∃ v, v.getLsbD 10 = true ∧ Writes32 s.cfg x 0x004 v) ∨ IsCommand s.cfg x 0x00000003#32 ∨ x = .reset))

/-- "A sticky bit never blocks a later access or command" (60_exceptions.md section 4), and is seen in a STATUS read alone:
two states that differ in the sticky bits and the answers so far take steps that end alike. They stop by the same fault, or
go on to states that again differ in no more, each having added the same answers to its own; only a 32-bit read of STATUS
may be answered by two words, and these agree outside bits 8 to 10. The relation is the one a step starts from, so the
statement composes over any number of steps. The answers are the model's (notes/assumptions/4.md). -/
def Obligations.StickyBitsNeverBlock : Prop :=
  ∀ s s' : State, AgreeButErrors s s' →
    (∀ f, step s = .fault f → step s' = .fault f) ∧
      ∀ t, step s = .next t → ∃ t' new new', step s' = .next t' ∧ AgreeButErrors t t' ∧
        t.answers = new ++ s.answers ∧ t'.answers = new' ++ s'.answers ∧
          (new' = new ∨
            ∃ rest v v', s.inputs = .access (.read .w32 (s.cfg.base + 0x004)) :: rest ∧ new = [.word v] ∧
              new' = [.word v'] ∧ ∀ k, k ≠ 8 → k ≠ 9 → k ≠ 10 → v'.getLsbD k = v.getLsbD k)

/-- Each input raises at most one cause (60_exceptions.md section 3), and nothing is ever taken out of the log, which is the
model's (notes/assumptions/5.md). -/
def Obligations.OneCausePerAccess : Prop :=
  ∀ s t : State, step s = .next t → t.raised = s.raised ∨ ∃ c, t.raised = c :: s.raised

/-- R74: the fault UndefinedByte is raised exactly when a rule reads an FBUF byte that is ⊥: a host byte read of it, or a
DECODE, with FLEN ≥ 16, over a header byte of the kind. It is final: every longer run ends in it too. -/
def Obligations.UndefinedByteExactlyOnUnwrittenReads : Prop :=
  ∀ s : State,
    (step s = .fault .undefinedByte ↔
      (∃ i rest, i < s.cfg.bufSize ∧ 0x400 + i < 0x1000 ∧
          s.inputs = .access (.read .w8 (s.cfg.base + (0x400 + i))) :: rest ∧ s.block.fbuf.read i = none) ∨
        ∃ x rest, s.inputs = x :: rest ∧ IsCommand s.cfg x 0x00000002#32 ∧ 16 ≤ s.block.flen.toNat ∧
          ∃ k, k < 16 ∧ s.block.fbuf.read k = none) ∧
      ∀ n m, core.run n s = .fault .undefinedByte → core.run (n + m) s = .fault .undefinedByte

/-- A sticky bit that is set has its raise in the log, kept by every step: the log is the model's
(notes/assumptions/5.md). -/
def Obligations.SetErrorBitsStayLogged : Prop :=
  ErrorsLogged State.reset ∧ ∀ s t : State, ErrorsLogged s → step s = .next t → ErrorsLogged t

/-! ## Whole-machine rules (10_state.md) -/

/-- R18: RXV after a step is 1 exactly when the step performed a successful DECODE, or it was 1 and the step was none of
those that clear it: a DECODE, ENCODE, ENCODE.FC or CLEAR, a host write to a field register, FLEN or an FBUF byte, and
reset. -/
def Obligations.RxvSetOnlyByDecode : Prop :=
  ∀ (s t : State) (x : HostInput) (rest : List HostInput), s.inputs = x :: rest → step s = .next t →
    (t.block.rxv = true ↔
      (IsCommand s.cfg x 0x00000002#32 ∧ 16 ≤ s.block.flen.toNat) ∨
        (s.block.rxv = true ∧
          ¬(IsCommand s.cfg x 0x00000002#32 ∨ IsCommand s.cfg x 0x00000001#32 ∨ IsCommand s.cfg x 0x00000011#32 ∨
            IsCommand s.cfg x 0x00000003#32 ∨ WritesFrame s.cfg x ∨ x = .reset)))

/-- R19: TXV after a step is 1 exactly when the step performed an ENCODE or ENCODE.FC, or it was 1 and the step was none of
those that clear it: a DECODE, successful or not, CLEAR, a host write to a field register, FLEN or an FBUF byte, and
reset. -/
def Obligations.TxvSetOnlyByEncode : Prop :=
  ∀ (s t : State) (x : HostInput) (rest : List HostInput), s.inputs = x :: rest → step s = .next t →
    (t.block.txv = true ↔
      IsCommand s.cfg x 0x00000001#32 ∨ IsCommand s.cfg x 0x00000011#32 ∨
        (s.block.txv = true ∧
          ¬(IsCommand s.cfg x 0x00000002#32 ∨ IsCommand s.cfg x 0x00000003#32 ∨ WritesFrame s.cfg x ∨ x = .reset)))

/-- Each register changes only by one of the writers its rule names (10_state.md sections 2 and 3): a field register by a
host write to it, DECODE, CLEAR or reset; FLEN by a host write to it, ENCODE, CLEAR or reset; PAVAIL by ENCODE, DECODE,
CLEAR or reset. -/
def Obligations.RegistersChangeOnlyByTheirWriters : Prop :=
  ∀ (s t : State) (x : HostInput) (rest : List HostInput), s.inputs = x :: rest → step s = .next t →
    (t.block.seq ≠ s.block.seq → (∃ v, Writes32 s.cfg x 0x008 v) ∨ IsCommand s.cfg x 0x00000002#32 ∨
      IsCommand s.cfg x 0x00000003#32 ∨ x = .reset) ∧
      (t.block.ack ≠ s.block.ack → (∃ v, Writes32 s.cfg x 0x00C v) ∨ IsCommand s.cfg x 0x00000002#32 ∨
        IsCommand s.cfg x 0x00000003#32 ∨ x = .reset) ∧
        (t.block.fin ≠ s.block.fin → (∃ v, Writes32 s.cfg x 0x010 v) ∨ IsCommand s.cfg x 0x00000002#32 ∨
          IsCommand s.cfg x 0x00000003#32 ∨ x = .reset) ∧
          (t.block.cor ≠ s.block.cor → (∃ v, Writes32 s.cfg x 0x014 v) ∨ IsCommand s.cfg x 0x00000002#32 ∨
            IsCommand s.cfg x 0x00000003#32 ∨ x = .reset) ∧
            (t.block.len ≠ s.block.len → (∃ v, Writes32 s.cfg x 0x018 v) ∨ IsCommand s.cfg x 0x00000002#32 ∨
              IsCommand s.cfg x 0x00000003#32 ∨ x = .reset) ∧
              (t.block.flen ≠ s.block.flen → (∃ v, Writes32 s.cfg x 0x01C v) ∨ IsCommand s.cfg x 0x00000001#32 ∨
                IsCommand s.cfg x 0x00000011#32 ∨ IsCommand s.cfg x 0x00000003#32 ∨ x = .reset) ∧
                (t.block.pavail ≠ s.block.pavail → IsCommand s.cfg x 0x00000001#32 ∨ IsCommand s.cfg x 0x00000011#32 ∨
                  IsCommand s.cfg x 0x00000002#32 ∨ IsCommand s.cfg x 0x00000003#32 ∨ x = .reset)

/-- A byte of FBUF changes only by a host byte write to it, by ENCODE or ENCODE.FC for a header byte, or by reset, which
leaves it ⊥ (10_state.md section 4). -/
def Obligations.BufferBytesChangeOnlyByTheirWriters : Prop :=
  ∀ (s t : State) (x : HostInput) (rest : List HostInput), s.inputs = x :: rest → step s = .next t →
    ∀ a, t.block.fbuf.read a ≠ s.block.fbuf.read a →
      (a < s.cfg.bufSize ∧ ∃ v : Word, x = .access (.write .w8 (s.cfg.base + (0x400 + a)) v) ∧
          t.block.fbuf.read a = some (v.extractLsb' 0 8)) ∨
        (a < 16 ∧ (IsCommand s.cfg x 0x00000001#32 ∨ IsCommand s.cfg x 0x00000011#32)) ∨
          (x = .reset ∧ t.block.fbuf.read a = none)

/-! ## Reset and invariants (70_reset_and_hazards.md) -/

/-- R81: after reset, the first state and a reset input alike, every register and flag is 0 and every FBUF byte is ⊥;
STATUS reads 0 and CFG its constant. The parameters, the inputs and the logs are not the block's
(notes/assumptions/7.md). -/
def Obligations.ResetLeavesTheStatedValues : Prop :=
  (∀ s : State, s = State.reset ∨ (∃ c, s = State.resetOf c) ∨
      (∃ s0 rest, s0.inputs = HostInput.reset :: rest ∧ step s0 = .next s ∧ s.cfg = s0.cfg) →
    s.block.seq = 0x00000000#32 ∧ s.block.ack = 0x00000000#32 ∧ s.block.fin = 0x0000#16 ∧ s.block.cor = 0x0000#16 ∧
      s.block.len = 0x00000000#32 ∧ s.block.flen = 0#32 ∧ s.block.pavail = 0#32 ∧ s.block.rxv = false ∧
        s.block.txv = false ∧ s.block.eMalf = false ∧ s.block.eIll = false ∧ s.block.eOvr = false ∧
          (∀ a, s.block.fbuf.read a = none) ∧
            memRead .w32 0x004 s = .next { s with answers := .word 0x00000000#32 :: s.answers } ∧
              memRead .w32 0x024 s = .next { s with answers := .word (cfgWord s.cfg) :: s.answers }) ∧
    ∀ (s : State) (rest : List HostInput), s.inputs = .reset :: rest → ∃ t, step s = .next t ∧ t.cfg = s.cfg

/-- The state after reset of any machine with legal parameters, the reference machine among them, is a good state. -/
def Obligations.ResetIsAGoodState : Prop :=
  State.reset.Inv ∧ ∀ c : Config, c.wf = true → (State.resetOf c).Inv

/-- Every step keeps a good state good: FLEN ≤ BUF_SIZE, PAVAIL ≤ MAX_PAYLOAD, the buffer canonical and inside its bounds,
RXV and TXV not both 1, the parameters legal. -/
def Obligations.StepKeepsGoodStates : Prop :=
  ∀ s t : State, s.Inv → step s = .next t → t.Inv

/-- RXV's promise holds at reset and every step keeps it, from every state (10_state.md section 5). -/
def Obligations.RxvMeansADecodedFrame : Prop :=
  RxvMeans State.reset ∧ ∀ s t : State, RxvMeans s → step s = .next t → RxvMeans t

/-- TXV's promise holds at reset and every step of a machine with legal parameters keeps it (10_state.md section 5). -/
def Obligations.TxvMeansABuiltFrame : Prop :=
  TxvMeans State.reset ∧ ∀ s t : State, s.cfg.wf = true → TxvMeans s → step s = .next t → TxvMeans t

/-! ## Pseudo-instructions (30_encoding.md section 4) -/

/-- SETHDR's five writes, in order, load the five fields (FIN and COR their low halves) and do nothing else but clear RXV
and TXV. The input queue is the model's (notes/assumptions/3.md). -/
def Obligations.SethdrLoadsTheFields : Prop :=
  ∀ (s : State) (q a f c l : Word) (rest : List HostInput),
    core.run 5 { s with inputs := (Pseudo.sethdr q a f c l).inputs s ++ rest } =
      .next { s with
        inputs := rest
        block :=
          { s.block with
            seq := q
            ack := a
            fin := f.extractLsb' 0 16
            cor := c.extractLsb' 0 16
            len := l
            rxv := false
            txv := false }
        answers := [.done, .done, .done, .done, .done] ++ s.answers }

/-- RXFRAME loads a received datagram of n bytes: its first min(n, BUF_SIZE) bytes become the frame FBUF[0 .. FLEN), the
bytes of FBUF past it and the registers but FLEN stay, RXV and TXV are cleared, and E_OVR is raised exactly when n was
above BUF_SIZE. The input queue is the model's (notes/assumptions/3.md). -/
def Obligations.RxframeLoadsTheDatagram : Prop :=
  ∀ (s : State) (n : Word) (bs : List Byte) (rest : List HostInput), s.cfg.wf = true →
    (Pseudo.rxframe n bs).wf s.cfg = true →
      ∃ t, core.run (bs.length + 1) { s with inputs := (Pseudo.rxframe n bs).inputs s ++ rest } = .next t ∧
        t.block.frame = bs.map some ∧ t.block.flen.toNat = min n.toNat s.cfg.bufSize ∧
          (∀ a, bs.length ≤ a → t.block.fbuf.read a = s.block.fbuf.read a) ∧
            t.block = { s.block with
              fbuf := t.block.fbuf
              flen := t.block.flen
              rxv := false
              txv := false
              eOvr := s.block.eOvr || decide (s.cfg.bufSize < n.toNat) } ∧
              t.inputs = rest ∧ t.cfg = s.cfg

/-- TXREAD, issued in any state whose FLEN is within the buffer, reads out the current frame: FLEN's value, then the bytes
FBUF[0 .. FLEN) in increasing order, and changes nothing else. Where one of those bytes is ⊥ it is the fault UndefinedByte
(30_encoding.md section 4; 70_reset_and_hazards.md section 2). The answers and the input queue are the model's
(notes/assumptions/3.md, 4.md). -/
def Obligations.TxreadReadsOutTheFrame : Prop :=
  ∀ s : State, s.cfg.wf = true → s.block.flen.toNat ≤ s.cfg.bufSize →
    (∀ bs : List Byte, s.block.frame = bs.map some →
      runProgram [.pseudo .txread] s =
        .next { s with answers := (bs.map Answer.byte).reverse ++ .word s.block.flen :: s.answers }) ∧
      ((∃ k, k < s.block.flen.toNat ∧ s.block.fbuf.read k = none) →
        runProgram [.pseudo .txread] s = .fault .undefinedByte)

/-- R53: each pseudo-instruction, issued in s, is exactly the listed accesses in the listed order. TXREAD's byte reads are
as many as FLEN; RXFRAME's bytes are the first min(n, BUF_SIZE) of the datagram. -/
def Obligations.PseudoInstructionsExpandAsListed : Prop :=
  (∀ (s : State) (q a f c l : Word),
    (Pseudo.sethdr q a f c l).inputs s =
      [.access (.write .w32 (s.cfg.base + 0x008) q), .access (.write .w32 (s.cfg.base + 0x00C) a),
        .access (.write .w32 (s.cfg.base + 0x010) f), .access (.write .w32 (s.cfg.base + 0x014) c),
        .access (.write .w32 (s.cfg.base + 0x018) l)]) ∧
    (∀ (s : State) (i : Nat) (bs : List Byte),
      (Pseudo.wrbuf i bs).inputs s = (List.range bs.length).map fun k =>
        .access (.write .w8 (s.cfg.base + (0x400 + (i + k))) ((bs.getD k 0).setWidth 32))) ∧
      (∀ (s : State) (i n : Nat),
        (Pseudo.rdbuf i n).inputs s = (List.range n).map fun k =>
          .access (.read .w8 (s.cfg.base + (0x400 + (i + k))))) ∧
        (∀ (s : State) (n : Word) (bs : List Byte),
          (Pseudo.rxframe n bs).inputs s =
              (Pseudo.wrbuf 0 bs).inputs s ++ [.access (.write .w32 (s.cfg.base + 0x01C) n)] ∧
            ((Pseudo.rxframe n bs).wf s.cfg = true ↔ bs.length = min n.toNat s.cfg.bufSize)) ∧
          (∀ s : State,
            Pseudo.txread.inputs s =
              .access (.read .w32 (s.cfg.base + 0x01C)) :: (Pseudo.rdbuf 0 s.block.flen.toNat).inputs s) ∧
            ∀ s : State, Pseudo.clrerr.inputs s = [.access (.write .w32 (s.cfg.base + 0x004) 0x00000700#32)]
end

