-- ==== Sys2Proof/Laws/State.lean ====
section
/-! SUPPORT. One lemma per field per update of the state, so that no proof unfolds an update. -/

namespace Sys2Proof.Machine

/-! ## State.answer -/

@[simp] theorem answer_cfg (a : Answer) (s : State) : (s.answer a).cfg = s.cfg := rfl
@[simp] theorem answer_block (a : Answer) (s : State) : (s.answer a).block = s.block := rfl
@[simp] theorem answer_inputs (a : Answer) (s : State) : (s.answer a).inputs = s.inputs := rfl
@[simp] theorem answer_answers (a : Answer) (s : State) : (s.answer a).answers = a :: s.answers := rfl
@[simp] theorem answer_raised (a : Answer) (s : State) : (s.answer a).raised = s.raised := rfl

/-! ## State.busError -/

@[simp] theorem busError_cfg (s : State) : s.busError.cfg = s.cfg := rfl
@[simp] theorem busError_block (s : State) : s.busError.block = s.block := rfl
@[simp] theorem busError_inputs (s : State) : s.busError.inputs = s.inputs := rfl
@[simp] theorem busError_answers (s : State) : s.busError.answers = .busError :: s.answers := rfl
@[simp] theorem busError_raised (s : State) : s.busError.raised = .busError :: s.raised := rfl

/-! ## State.raise -/

@[simp] theorem raise_cfg (e : ErrorBit) (s : State) : (s.raise e).cfg = s.cfg := rfl
@[simp] theorem raise_block (e : ErrorBit) (s : State) : (s.raise e).block = s.block.setError e true := rfl
@[simp] theorem raise_inputs (e : ErrorBit) (s : State) : (s.raise e).inputs = s.inputs := rfl
@[simp] theorem raise_answers (e : ErrorBit) (s : State) : (s.raise e).answers = s.answers := rfl
@[simp] theorem raise_raised (e : ErrorBit) (s : State) : (s.raise e).raised = .error e :: s.raised := rfl

/-! ## State.hardwareReset -/

@[simp] theorem hardwareReset_cfg (s : State) : s.hardwareReset.cfg = s.cfg := rfl
@[simp] theorem hardwareReset_block (s : State) : s.hardwareReset.block = Block.reset := rfl
@[simp] theorem hardwareReset_inputs (s : State) : s.hardwareReset.inputs = s.inputs := rfl
@[simp] theorem hardwareReset_answers (s : State) : s.hardwareReset.answers = s.answers := rfl
@[simp] theorem hardwareReset_raised (s : State) : s.hardwareReset.raised = s.raised := rfl

/-! ## Block.setError -/

section
variable (e : ErrorBit) (v : Bool) (b : Block)
@[simp] theorem setError_seq : (b.setError e v).seq = b.seq := by cases e <;> rfl
@[simp] theorem setError_ack : (b.setError e v).ack = b.ack := by cases e <;> rfl
@[simp] theorem setError_fin : (b.setError e v).fin = b.fin := by cases e <;> rfl
@[simp] theorem setError_cor : (b.setError e v).cor = b.cor := by cases e <;> rfl
@[simp] theorem setError_len : (b.setError e v).len = b.len := by cases e <;> rfl
@[simp] theorem setError_flen : (b.setError e v).flen = b.flen := by cases e <;> rfl
@[simp] theorem setError_pavail : (b.setError e v).pavail = b.pavail := by cases e <;> rfl
@[simp] theorem setError_fbuf : (b.setError e v).fbuf = b.fbuf := by cases e <;> rfl
@[simp] theorem setError_rxv : (b.setError e v).rxv = b.rxv := by cases e <;> rfl
@[simp] theorem setError_txv : (b.setError e v).txv = b.txv := by cases e <;> rfl

/-- Setting one sticky bit sets it and leaves the others. -/
@[simp] theorem setError_errorBit (e' : ErrorBit) :
    (b.setError e v).errorBit e' = if e' = e then v else b.errorBit e' := by
  cases e <;> cases e' <;> rfl
end

/-! ## Block.clearErrors -/

section
variable (v : Word) (b : Block)
@[simp] theorem clearErrors_seq : (b.clearErrors v).seq = b.seq := rfl
@[simp] theorem clearErrors_ack : (b.clearErrors v).ack = b.ack := rfl
@[simp] theorem clearErrors_fin : (b.clearErrors v).fin = b.fin := rfl
@[simp] theorem clearErrors_cor : (b.clearErrors v).cor = b.cor := rfl
@[simp] theorem clearErrors_len : (b.clearErrors v).len = b.len := rfl
@[simp] theorem clearErrors_flen : (b.clearErrors v).flen = b.flen := rfl
@[simp] theorem clearErrors_pavail : (b.clearErrors v).pavail = b.pavail := rfl
@[simp] theorem clearErrors_fbuf : (b.clearErrors v).fbuf = b.fbuf := rfl
@[simp] theorem clearErrors_rxv : (b.clearErrors v).rxv = b.rxv := rfl
@[simp] theorem clearErrors_txv : (b.clearErrors v).txv = b.txv := rfl
@[simp] theorem clearErrors_eMalf : (b.clearErrors v).eMalf = (b.eMalf && !v.getLsbD 8) := rfl
@[simp] theorem clearErrors_eIll : (b.clearErrors v).eIll = (b.eIll && !v.getLsbD 9) := rfl
@[simp] theorem clearErrors_eOvr : (b.clearErrors v).eOvr = (b.eOvr && !v.getLsbD 10) := rfl
end

/-! ## Block.invalidate, Block.header, Block.setHeader -/

section
variable (b : Block) (h : Header)
@[simp] theorem invalidate_seq : b.invalidate.seq = b.seq := rfl
@[simp] theorem invalidate_ack : b.invalidate.ack = b.ack := rfl
@[simp] theorem invalidate_fin : b.invalidate.fin = b.fin := rfl
@[simp] theorem invalidate_cor : b.invalidate.cor = b.cor := rfl
@[simp] theorem invalidate_len : b.invalidate.len = b.len := rfl
@[simp] theorem invalidate_flen : b.invalidate.flen = b.flen := rfl
@[simp] theorem invalidate_pavail : b.invalidate.pavail = b.pavail := rfl
@[simp] theorem invalidate_fbuf : b.invalidate.fbuf = b.fbuf := rfl
@[simp] theorem invalidate_rxv : b.invalidate.rxv = false := rfl
@[simp] theorem invalidate_txv : b.invalidate.txv = false := rfl
@[simp] theorem invalidate_eMalf : b.invalidate.eMalf = b.eMalf := rfl
@[simp] theorem invalidate_eIll : b.invalidate.eIll = b.eIll := rfl
@[simp] theorem invalidate_eOvr : b.invalidate.eOvr = b.eOvr := rfl

@[simp] theorem setHeader_header : (b.setHeader h).header = h := rfl
@[simp] theorem setHeader_flen : (b.setHeader h).flen = b.flen := rfl
@[simp] theorem setHeader_pavail : (b.setHeader h).pavail = b.pavail := rfl
@[simp] theorem setHeader_fbuf : (b.setHeader h).fbuf = b.fbuf := rfl
@[simp] theorem setHeader_rxv : (b.setHeader h).rxv = b.rxv := rfl
@[simp] theorem setHeader_txv : (b.setHeader h).txv = b.txv := rfl
@[simp] theorem setHeader_eMalf : (b.setHeader h).eMalf = b.eMalf := rfl
@[simp] theorem setHeader_eIll : (b.setHeader h).eIll = b.eIll := rfl
@[simp] theorem setHeader_eOvr : (b.setHeader h).eOvr = b.eOvr := rfl
end

/-! ## answerDone -/

@[simp] theorem answerDone_next (s : State) : answerDone (.next s) = .next (s.answer .done) := rfl
@[simp] theorem answerDone_fault (r : Fault) : answerDone (.fault r) = .fault r := rfl
@[simp] theorem answerDone_refused (r : Refusal) : answerDone (.refused r) = .refused r := rfl

/-- A write that went on ends in its own next state with `done` answered. -/
theorem answerDone_eq_next {o : Result} {t : State} (h : answerDone o = .next t) :
    ∃ s, o = .next s ∧ t = s.answer .done := by
  cases o with
  | next s => exact ⟨s, rfl, by simpa using h.symm⟩
  | fault r => simp at h
  | refused r => simp at h

/-- A write that faults faulted by itself. -/
theorem answerDone_eq_fault {o : Result} {r : Fault} : answerDone o = .fault r ↔ o = .fault r := by
  cases o <;> simp

end Sys2Proof.Machine
end

