-- ==== Sys2Proof/Laws/Bus.lean ====
section
/-! SUPPORT. What a command, an access and a step can do, each said once: inversion lemmas the proofs cite. -/

namespace Sys2Proof.Machine

/-! ## exec, one equation a command -/

@[simp] theorem exec_nop (s : State) : exec .nop s = .next s := rfl
@[simp] theorem exec_encode (s : State) : exec .encode s = .next (serialize false s) := rfl
@[simp] theorem exec_encodeFc (s : State) : exec .encodeFc s = .next (serialize true s) := rfl
@[simp] theorem exec_decode (s : State) : exec .decode s = execDecode s := rfl
@[simp] theorem exec_clear (s : State) :
    exec .clear s = .next { s with block := { Block.reset with fbuf := s.block.fbuf } } := rfl

/-- Everything DECODE can do. -/
theorem execDecode_cases (s : State) :
    (s.block.flen.toNat < 16 ∧ execDecode s = .next (decodeFail s)) ∨
      (16 ≤ s.block.flen.toNat ∧ ∃ h, getHeader s.cfg.endian s.block.fbuf = some h ∧
        execDecode s = .next (loadHeader h s)) ∨
      (16 ≤ s.block.flen.toNat ∧ getHeader s.cfg.endian s.block.fbuf = none ∧
        execDecode s = .fault .undefinedByte) := by
  unfold execDecode
  by_cases hl : s.block.flen.toNat < hdrSize
  · exact .inl ⟨hl, by simp [hl]⟩
  · have hl' : 16 ≤ s.block.flen.toNat := Nat.le_of_not_lt hl
    cases hg : getHeader s.cfg.endian s.block.fbuf with
    | none => exact .inr (.inr ⟨hl', rfl, by simp [hl]⟩)
    | some h => exact .inr (.inl ⟨hl', h, rfl, by simp [hl]⟩)

/-- A command ends in a next state or, DECODE alone, in the fault UndefinedByte. -/
theorem exec_cases (i : Instr) (s : State) :
    (∃ t, exec i s = .next t) ∨ (i = .decode ∧ exec i s = .fault .undefinedByte) := by
  cases i with
  | nop => exact .inl ⟨_, rfl⟩
  | encode => exact .inl ⟨_, rfl⟩
  | encodeFc => exact .inl ⟨_, rfl⟩
  | clear => exact .inl ⟨_, rfl⟩
  | decode =>
    rcases execDecode_cases s with ⟨_, h⟩ | ⟨_, _, _, h⟩ | ⟨_, _, h⟩
    · exact .inl ⟨_, h⟩
    · exact .inl ⟨_, h⟩
    · exact .inr ⟨rfl, h⟩

/-! ## The map -/

/-- A register offset of the window is one of the ten named ones or reserved. -/
theorem regAt_cases (off : Nat) :
    (∃ r : Reg, r ≠ .reserved ∧ off = r.offset ∧ regAt off = r) ∨ regAt off = .reserved := by
  unfold regAt
  split
  case h_11 => exact .inr rfl
  all_goals exact .inl ⟨_, by decide, rfl, rfl⟩

/-- Everything the map can make of an access. -/
theorem target_cases (c : Config) (w : Width) (off : Nat) :
    (off < 0x400 ∧ w = .w32 ∧ off % 4 = 0 ∧ target c w off = .reg (regAt off)) ∨
      (0x400 ≤ off ∧ w = .w8 ∧ off - 0x400 < c.bufSize ∧ target c w off = .frameByte (off - 0x400)) ∨
      (0x400 ≤ off ∧ w = .w8 ∧ c.bufSize ≤ off - 0x400 ∧ target c w off = .tail) ∨
      (((off < 0x400 ∧ ¬(w = .w32 ∧ off % 4 = 0)) ∨ (0x400 ≤ off ∧ w ≠ .w8)) ∧ target c w off = .busError) := by
  have hbw : bufferWindow = 0x400 := rfl
  unfold target
  simp only [hbw]
  split
  · next h =>
    split
    · next hw => exact .inl ⟨h, hw.1, hw.2, rfl⟩
    · next hw => exact .inr (.inr (.inr ⟨.inl ⟨h, hw⟩, rfl⟩))
  · next h =>
    have h' : 0x400 ≤ off := by omega
    split
    · next hw =>
      split
      · next hb => exact .inr (.inl ⟨h', hw, hb, rfl⟩)
      · next hb => exact .inr (.inr (.inl ⟨h', hw, by omega, rfl⟩))
    · next hw => exact .inr (.inr (.inr ⟨.inr ⟨h', hw⟩, rfl⟩))

/-- An access outside the window faults; an access inside is a read or a write of what its offset reaches. -/
theorem access_cases (a : Access) (s : State) :
    (¬(s.cfg.base ≤ a.addr ∧ a.addr < s.cfg.base + 0x1000) ∧ access a s = .fault .outsideWindow) ∨
      ∃ off, off < 0x1000 ∧
        ((∃ w, a = .read w (s.cfg.base + off) ∧ access a s = readTarget (target s.cfg w off) s) ∨
          ∃ w v, a = .write w (s.cfg.base + off) v ∧ access a s = writeTarget (target s.cfg w off) v s) := by
  by_cases h : s.cfg.base ≤ a.addr ∧ a.addr < s.cfg.base + 0x1000
  · refine .inr ⟨a.addr - s.cfg.base, by omega, ?_⟩
    have hi : inWindow s.cfg a.addr = true := by simp [inWindow, windowSize, h]
    cases a with
    | read w addr =>
      have ha : s.cfg.base + (addr - s.cfg.base) = addr := by have := h.1; simp only [Access.addr] at this; omega
      exact .inl ⟨w, by simp [Access.addr, ha], by simp [access, Access.addr] at hi ⊢; simp [hi]⟩
    | write w addr v =>
      have ha : s.cfg.base + (addr - s.cfg.base) = addr := by have := h.1; simp only [Access.addr] at this; omega
      exact .inr ⟨w, v, by simp [Access.addr, ha], by simp [access, Access.addr] at hi ⊢; simp [hi]⟩
  · have hi : inWindow s.cfg a.addr = false := Bool.eq_false_iff.2 fun hi => h <| by
      obtain ⟨h1, h2⟩ := Bool.and_eq_true_iff.1 hi
      exact ⟨of_decide_eq_true h1, of_decide_eq_true h2⟩
    exact .inl ⟨h, by simp [access, hi]⟩

/-- An access at an offset of the window, with the base taken off. -/
@[simp] theorem access_read_offset (w : Width) {off : Nat} (s : State) (h : off < 0x1000) :
    access (.read w (s.cfg.base + off)) s = readTarget (target s.cfg w off) s := by
  simp [access, inWindow, Access.addr, windowSize, h]

@[simp] theorem access_write_offset (w : Width) {off : Nat} (v : Word) (s : State) (h : off < 0x1000) :
    access (.write w (s.cfg.base + off) v) s = writeTarget (target s.cfg w off) v s := by
  simp [access, inWindow, Access.addr, windowSize, h]

/-! ## A step -/

/-- Everything a step is: idle with no input, else its first input performed with the rest still to come. -/
theorem step_cases (s : State) :
    (s.inputs = [] ∧ step s = .next s) ∨
      (∃ a rest, s.inputs = .access a :: rest ∧ step s = access a { s with inputs := rest }) ∨
      ∃ rest, s.inputs = .reset :: rest ∧ step s = .next { s with inputs := rest, block := Block.reset } := by
  unfold step
  split
  · next h => exact .inl ⟨h, rfl⟩
  · next x rest h =>
    cases x with
    | access a => exact .inr (.inl ⟨a, rest, h, rfl⟩)
    | reset => exact .inr (.inr ⟨rest, h, rfl⟩)

end Sys2Proof.Machine
end

