-- ==== Sys2Proof/Laws/Memory.lean ====
section
/-! SUPPORT. The laws of the frame buffer: what a byte write and a field write do to every byte, and that each keeps
the canonical form and the bound on indices. -/

namespace Sys2Proof.Machine

@[simp] theorem read_nil (a : Nat) : Memory.read [] a = none := rfl

/-- Everything a byte write does: the byte written reads as its value, every other byte as before. -/
theorem read_write (m : Memory) (a b : Nat) (v : Byte) :
    (m.write a v).read b = if b = a then some v else m.read b := by
  induction m with
  | nil => by_cases h : b = a <;> simp [Memory.write, Memory.read, h, Ne.symm]
  | cons c m ih =>
    simp only [Memory.write]
    split
    · by_cases h : b = a <;> simp [Memory.read, h, Ne.symm]
    · split
      · next h => subst h; by_cases h : b = c.1 <;> simp [Memory.read, h, Ne.symm]
      · next h =>
        simp only [Memory.read, ih]
        by_cases h1 : c.1 = b
        · have : b ≠ a := by omega
          simp [h1, this]
        · simp [h1]

/-- A byte that was just written reads as its value. -/
@[simp] theorem read_write_same (m : Memory) (a : Nat) (v : Byte) : (m.write a v).read a = some v := by
  simp [read_write]

/-- A byte write leaves every other byte. -/
theorem read_write_of_ne (m : Memory) {a b : Nat} (v : Byte) (h : b ≠ a) : (m.write a v).read b = m.read b := by
  simp [read_write, h]

/-- A cell of a written buffer is the new one or an old one. -/
theorem mem_write {m : Memory} {a : Nat} {v : Byte} {c : Host.Cell} (h : c ∈ m.write a v) : c = (a, v) ∨ c ∈ m := by
  induction m with
  | nil => simpa [Memory.write] using h
  | cons d m ih =>
    simp only [Memory.write] at h
    split at h
    · simpa using h
    · split at h
      · rcases List.mem_cons.1 h with h | h
        · exact .inl h
        · exact .inr (List.mem_cons_of_mem _ h)
      · rcases List.mem_cons.1 h with h | h
        · exact .inr (h ▸ List.mem_cons_self ..)
        · exact (ih h).imp id (List.mem_cons_of_mem _)

/-- A byte write keeps the canonical form. -/
theorem wf_write {m : Memory} (a : Nat) (v : Byte) (h : m.wf) : (m.write a v).wf := by
  induction m with
  | nil => exact List.pairwise_singleton ..
  | cons c m ih =>
    obtain ⟨hc, hm⟩ := List.pairwise_cons.1 h
    simp only [Memory.write]
    split
    · next h1 =>
      refine List.pairwise_cons.2 ⟨fun d hd => ?_, h⟩
      rcases List.mem_cons.1 hd with rfl | hd
      · exact h1
      · exact lt_trans h1 (hc d hd)
    · split
      · next h1 => subst h1; exact List.pairwise_cons.2 ⟨hc, hm⟩
      · next h1 h2 =>
        refine List.pairwise_cons.2 ⟨fun d hd => ?_, ih hm⟩
        rcases mem_write hd with rfl | hd
        · show c.1 < a
          omega
        · exact hc d hd

/-- The buffer after reset is in canonical form. -/
theorem wf_reset : State.reset.block.fbuf.wf := List.Pairwise.nil

/-- A byte with a value is a cell of the list. -/
theorem mem_of_read {m : Memory} {a : Nat} {v : Byte} (h : m.read a = some v) : (a, v) ∈ m := by
  induction m with
  | nil => simp at h
  | cons c m ih =>
    simp only [Memory.read] at h
    split at h
    · next h1 =>
      obtain rfl : c = (a, v) := Prod.ext h1 (by simpa using h)
      exact List.mem_cons_self ..
    · exact List.mem_cons_of_mem _ (ih h)

/-- In canonical form, a cell of the list is what its byte reads as. -/
theorem read_of_mem {m : Memory} {a : Nat} {v : Byte} (hw : m.wf) (h : (a, v) ∈ m) : m.read a = some v := by
  induction m with
  | nil => simp at h
  | cons c m ih =>
    obtain ⟨hc, hm⟩ := List.pairwise_cons.1 hw
    rcases List.mem_cons.1 h with rfl | h
    · simp [Memory.read]
    · have : c.1 < a := hc _ h
      simp [Memory.read, Nat.ne_of_lt this, ih hm h]

/-- Writing back the value a byte holds changes nothing: equal memories are equal data. -/
theorem write_read_self {m : Memory} {a : Nat} {v : Byte} (hw : m.wf) (h : m.read a = some v) : m.write a v = m := by
  induction m with
  | nil => simp at h
  | cons c m ih =>
    obtain ⟨hc, hm⟩ := List.pairwise_cons.1 hw
    simp only [Memory.read] at h
    split at h
    · next h1 =>
      obtain rfl : c = (a, v) := Prod.ext h1 (by simpa using h)
      simp [Memory.write]
    · next h1 =>
      have : c.1 < a := hc _ (mem_of_read h)
      simp [Memory.write, Nat.not_lt.2 this.le, Ne.symm h1, ih hm h]

/-! ## Field writes -/

/-- The k-th byte of a 32-bit field in an order. -/
def fieldByte32 (e : Endian) (v : Word) (k : Nat) : Byte :=
  match e with
  | .big => v.extractLsb' (24 - 8 * k) 8
  | .little => v.extractLsb' (8 * k) 8

/-- The k-th byte of a 16-bit field in an order. -/
def fieldByte16 (e : Endian) (v : Half) (k : Nat) : Byte :=
  match e with
  | .big => v.extractLsb' (8 - 8 * k) 8
  | .little => v.extractLsb' (8 * k) 8

/-- Everything put32 does to the bytes. -/
theorem read_put32 (e : Endian) (i : Nat) (v : Word) (m : Memory) (a : Nat) :
    (put32 e i v m).read a = if i ≤ a ∧ a < i + 4 then some (fieldByte32 e v (a - i)) else m.read a := by
  by_cases h : i ≤ a ∧ a < i + 4
  · obtain ⟨k, hk, rfl⟩ : ∃ k, k < 4 ∧ a = i + k := ⟨a - i, by omega, by omega⟩
    interval_cases k <;> cases e <;> simp [put32, read_write, fieldByte32]
  · have h0 : a ≠ i := by omega
    have h1 : a ≠ i + 1 := by omega
    have h2 : a ≠ i + 2 := by omega
    have h3 : a ≠ i + 3 := by omega
    cases e <;> simp [put32, read_write, h, h0, h1, h2, h3]

/-- Everything put16 does to the bytes. -/
theorem read_put16 (e : Endian) (i : Nat) (v : Half) (m : Memory) (a : Nat) :
    (put16 e i v m).read a = if i ≤ a ∧ a < i + 2 then some (fieldByte16 e v (a - i)) else m.read a := by
  by_cases h : i ≤ a ∧ a < i + 2
  · obtain ⟨k, hk, rfl⟩ : ∃ k, k < 2 ∧ a = i + k := ⟨a - i, by omega, by omega⟩
    interval_cases k <;> cases e <;> simp [put16, read_write, fieldByte16]
  · have h0 : a ≠ i := by omega
    have h1 : a ≠ i + 1 := by omega
    cases e <;> simp [put16, read_write, h, h0, h1]

/-- A property of buffers that byte writes below 16 keep is kept by putting a header. -/
theorem putHeader_induct {P : Memory → Prop} (hP : ∀ m a v, a < 16 → P m → P (Memory.write m a v))
    (e : Endian) (h : Header) (m : Memory) (hm : P m) : P (putHeader e h m) := by
  have p32 : ∀ i v m, i + 3 < 16 → P m → P (put32 e i v m) := fun i v m hi hm => by
    cases e <;> exact hP _ _ _ (by omega) (hP _ _ _ (by omega) (hP _ _ _ (by omega) (hP _ _ _ (by omega) hm)))
  have p16 : ∀ i v m, i + 1 < 16 → P m → P (put16 e i v m) := fun i v m hi hm => by
    cases e <;> exact hP _ _ _ (by omega) (hP _ _ _ (by omega) hm)
  exact p32 _ _ _ (by omega) (p16 _ _ _ (by omega) (p16 _ _ _ (by omega)
    (p32 _ _ _ (by omega) (p32 _ _ _ (by omega) hm))))

/-- Putting a header keeps the canonical form. -/
theorem wf_putHeader (e : Endian) (h : Header) {m : Memory} (hm : m.wf) : (putHeader e h m).wf :=
  putHeader_induct (fun _ _ _ _ => wf_write _ _) e h m hm

/-- Putting a header leaves every byte past the header. -/
theorem read_putHeader_payload (e : Endian) (h : Header) (m : Memory) {a : Nat} (ha : 16 ≤ a) :
    (putHeader e h m).read a = m.read a :=
  putHeader_induct (P := fun m' => m'.read a = m.read a)
    (fun m' b v hb hm' => by rw [read_write_of_ne m' v (by omega), hm']) e h m rfl

/-- Putting a header writes no cell past the header. -/
theorem mem_putHeader (e : Endian) (h : Header) (m : Memory) {c : Host.Cell} (hc : c ∈ putHeader e h m) :
    c.1 < 16 ∨ c ∈ m :=
  putHeader_induct (P := fun m' => ∀ c ∈ m', c.1 < 16 ∨ c ∈ m)
    (fun _ _ _ hb hm' c hc => (mem_write hc).elim (fun h => .inl (h ▸ hb)) (hm' c)) e h m (fun _ => .inr) c hc

end Sys2Proof.Machine
end

