-- ==== Sys2Proof/Laws/Header.lean ====
section
/-! SUPPORT. What getting and putting a header says, in terms of the 16 bytes on the wire. -/

namespace Sys2Proof.Machine

/-! ## Bits: a field is its bytes -/

theorem bytes_of_word (b0 b1 b2 b3 : Byte) (v : Word) :
    (b0 ++ b1 ++ b2 ++ b3 : Word) = v ↔
      b0 = v.extractLsb' 24 8 ∧ b1 = v.extractLsb' 16 8 ∧ b2 = v.extractLsb' 8 8 ∧ b3 = v.extractLsb' 0 8 := by
  constructor
  · rintro rfl
    refine ⟨?_, ?_, ?_, ?_⟩ <;>
      (ext i hi; simp only [BitVec.getElem_extractLsb', BitVec.getLsbD_append]
       interval_cases i <;> simp [BitVec.getLsbD_eq_getElem])
  · rintro ⟨rfl, rfl, rfl, rfl⟩
    ext i hi
    simp only [BitVec.getElem_append, BitVec.getElem_extractLsb']
    interval_cases i <;> simp [BitVec.getLsbD_eq_getElem]

theorem bytes_of_half (b0 b1 : Byte) (v : Half) :
    (b0 ++ b1 : Half) = v ↔ b0 = v.extractLsb' 8 8 ∧ b1 = v.extractLsb' 0 8 := by
  constructor
  · rintro rfl
    refine ⟨?_, ?_⟩ <;>
      (ext i hi; simp only [BitVec.getElem_extractLsb', BitVec.getLsbD_append]
       interval_cases i <;> simp [BitVec.getLsbD_eq_getElem])
  · rintro ⟨rfl, rfl⟩
    ext i hi
    simp only [BitVec.getElem_append, BitVec.getElem_extractLsb']
    interval_cases i <;> simp [BitVec.getLsbD_eq_getElem]

/-! ## Fields -/

/-- get32 answers v exactly when the four bytes are v's, in the order. -/
theorem get32_eq_some {e : Endian} {i : Nat} {m : Memory} {v : Word} :
    get32 e i m = some v ↔ ∀ k, k < 4 → m.read (i + k) = some (fieldByte32 e v k) := by
  have hall : (∀ k, k < 4 → m.read (i + k) = some (fieldByte32 e v k)) ↔
      m.read i = some (fieldByte32 e v 0) ∧ m.read (i + 1) = some (fieldByte32 e v 1) ∧
        m.read (i + 2) = some (fieldByte32 e v 2) ∧ m.read (i + 3) = some (fieldByte32 e v 3) :=
    ⟨fun h => ⟨h 0 (by omega), h 1 (by omega), h 2 (by omega), h 3 (by omega)⟩,
      fun ⟨h0, h1, h2, h3⟩ k hk => by interval_cases k <;> assumption⟩
  rw [hall, get32]
  cases m.read i <;> cases m.read (i + 1) <;> cases m.read (i + 2) <;> cases m.read (i + 3) <;> simp
  cases e <;> simp only [Option.some.injEq, bytes_of_word, fieldByte32]
  tauto

/-- get32 answers nothing exactly when one of the four bytes is ⊥. -/
theorem get32_eq_none {e : Endian} {i : Nat} {m : Memory} :
    get32 e i m = none ↔ ∃ k, k < 4 ∧ m.read (i + k) = none := by
  constructor
  · intro h
    by_contra hk
    push Not at hk
    obtain ⟨b0, h0⟩ := Option.ne_none_iff_exists'.1 (hk 0 (by omega))
    obtain ⟨b1, h1⟩ := Option.ne_none_iff_exists'.1 (hk 1 (by omega))
    obtain ⟨b2, h2⟩ := Option.ne_none_iff_exists'.1 (hk 2 (by omega))
    obtain ⟨b3, h3⟩ := Option.ne_none_iff_exists'.1 (hk 3 (by omega))
    rw [Nat.add_zero] at h0
    cases e <;> simp [get32, h0, h1, h2, h3] at h
  · rintro ⟨k, hk, hn⟩
    cases hg : get32 e i m with
    | none => rfl
    | some v => rw [get32_eq_some.1 hg k hk] at hn; cases hn

theorem get16_eq_some {e : Endian} {i : Nat} {m : Memory} {v : Half} :
    get16 e i m = some v ↔ ∀ k, k < 2 → m.read (i + k) = some (fieldByte16 e v k) := by
  have hall : (∀ k, k < 2 → m.read (i + k) = some (fieldByte16 e v k)) ↔
      m.read i = some (fieldByte16 e v 0) ∧ m.read (i + 1) = some (fieldByte16 e v 1) :=
    ⟨fun h => ⟨h 0 (by omega), h 1 (by omega)⟩, fun ⟨h0, h1⟩ k hk => by interval_cases k <;> assumption⟩
  rw [hall, get16]
  cases m.read i <;> cases m.read (i + 1) <;> simp
  cases e <;> simp only [Option.some.injEq, bytes_of_half, fieldByte16]
  tauto

theorem get16_eq_none {e : Endian} {i : Nat} {m : Memory} :
    get16 e i m = none ↔ ∃ k, k < 2 ∧ m.read (i + k) = none := by
  constructor
  · intro h
    by_contra hk
    push Not at hk
    obtain ⟨b0, h0⟩ := Option.ne_none_iff_exists'.1 (hk 0 (by omega))
    obtain ⟨b1, h1⟩ := Option.ne_none_iff_exists'.1 (hk 1 (by omega))
    rw [Nat.add_zero] at h0
    cases e <;> simp [get16, h0, h1] at h
  · rintro ⟨k, hk, hn⟩
    cases hg : get16 e i m with
    | none => rfl
    | some v => rw [get16_eq_some.1 hg k hk] at hn; cases hn

/-! ## The header -/

/-- getHeader answers exactly the five fields at their offsets. -/
theorem getHeader_eq_some {e : Endian} {m : Memory} {h : Header} :
    getHeader e m = some h ↔
      get32 e 0 m = some h.seq ∧ get32 e 4 m = some h.ack ∧ get16 e 8 m = some h.fin ∧
        get16 e 10 m = some h.cor ∧ get32 e 12 m = some h.len := by
  simp only [getHeader, Option.bind_eq_bind, Option.bind_eq_some_iff, Option.some.injEq]
  constructor
  · rintro ⟨s, hs, a, ha, f, hf, c, hc, l, hl, rfl⟩
    exact ⟨hs, ha, hf, hc, hl⟩
  · rintro ⟨hs, ha, hf, hc, hl⟩
    exact ⟨_, hs, _, ha, _, hf, _, hc, _, hl, rfl⟩

/-- The bytes of FBUF[0..15], field by field. -/
theorem headerBytes_iff {e : Endian} {m : Memory} {h : Header} :
    HeaderBytes m (wireHeader e h) ↔
      (∀ k, k < 4 → m.read (0 + k) = some (fieldByte32 e h.seq k)) ∧
        (∀ k, k < 4 → m.read (4 + k) = some (fieldByte32 e h.ack k)) ∧
          (∀ k, k < 2 → m.read (8 + k) = some (fieldByte16 e h.fin k)) ∧
            (∀ k, k < 2 → m.read (10 + k) = some (fieldByte16 e h.cor k)) ∧
              ∀ k, k < 4 → m.read (12 + k) = some (fieldByte32 e h.len k) := by
  constructor
  · intro hb
    refine ⟨?_, ?_, ?_, ?_, ?_⟩ <;> intro k hk <;> rw [hb _ (by omega)] <;> interval_cases k <;> cases e <;> rfl
  · rintro ⟨h0, h4, h8, h10, h12⟩ k hk
    obtain ⟨j, hj, rfl⟩ | ⟨j, hj, rfl⟩ | ⟨j, hj, rfl⟩ | ⟨j, hj, rfl⟩ | ⟨j, hj, rfl⟩ :
        (∃ j, j < 4 ∧ k = 0 + j) ∨ (∃ j, j < 4 ∧ k = 4 + j) ∨ (∃ j, j < 2 ∧ k = 8 + j) ∨
          (∃ j, j < 2 ∧ k = 10 + j) ∨ ∃ j, j < 4 ∧ k = 12 + j := by
      rcases Nat.lt_or_ge k 4 with h | h
      · exact .inl ⟨k, h, by omega⟩
      rcases Nat.lt_or_ge k 8 with h | h
      · exact .inr (.inl ⟨k - 4, by omega, by omega⟩)
      rcases Nat.lt_or_ge k 10 with h | h
      · exact .inr (.inr (.inl ⟨k - 8, by omega, by omega⟩))
      rcases Nat.lt_or_ge k 12 with h | h
      · exact .inr (.inr (.inr (.inl ⟨k - 10, by omega, by omega⟩)))
      · exact .inr (.inr (.inr (.inr ⟨k - 12, by omega, by omega⟩)))
    · rw [h0 j hj]; interval_cases j <;> cases e <;> rfl
    · rw [h4 j hj]; interval_cases j <;> cases e <;> rfl
    · rw [h8 j hj]; interval_cases j <;> cases e <;> rfl
    · rw [h10 j hj]; interval_cases j <;> cases e <;> rfl
    · rw [h12 j hj]; interval_cases j <;> cases e <;> rfl

/-- Everything getHeader can answer: it answers h exactly when FBUF[0..15] hold h's wire form. -/
theorem getHeader_iff_bytes {e : Endian} {m : Memory} {h : Header} :
    getHeader e m = some h ↔ HeaderBytes m (wireHeader e h) := by
  rw [getHeader_eq_some, headerBytes_iff]
  simp only [get32_eq_some, get16_eq_some]

/-- getHeader answers nothing exactly when a byte of FBUF[0..15] is ⊥. -/
theorem getHeader_eq_none_iff {e : Endian} {m : Memory} : getHeader e m = none ↔ ¬HeaderValued m := by
  constructor
  · intro h hv
    cases hs : get32 e 0 m with
    | none => obtain ⟨k, hk, hn⟩ := get32_eq_none.1 hs; exact hv _ (by omega) hn
    | some s =>
    cases ha : get32 e 4 m with
    | none => obtain ⟨k, hk, hn⟩ := get32_eq_none.1 ha; exact hv _ (by omega) hn
    | some a =>
    cases hf : get16 e 8 m with
    | none => obtain ⟨k, hk, hn⟩ := get16_eq_none.1 hf; exact hv _ (by omega) hn
    | some f =>
    cases hc : get16 e 10 m with
    | none => obtain ⟨k, hk, hn⟩ := get16_eq_none.1 hc; exact hv _ (by omega) hn
    | some c =>
    cases hl : get32 e 12 m with
    | none => obtain ⟨k, hk, hn⟩ := get32_eq_none.1 hl; exact hv _ (by omega) hn
    | some l =>
      rw [(getHeader_eq_some (h := ⟨s, a, f, c, l⟩)).2 ⟨hs, ha, hf, hc, hl⟩] at h
      cases h
  · intro hv
    cases hg : getHeader e m with
    | none => rfl
    | some h =>
      refine absurd (fun k hk => ?_) hv
      rw [getHeader_iff_bytes.1 hg k hk, List.getElem?_eq_getElem (by cases e <;> exact hk)]
      simp

/-- Everything putHeader does to the header bytes: they become the wire form of the header. (The bytes past them are
read_putHeader_payload's.) -/
theorem putHeader_bytes (e : Endian) (h : Header) (m : Memory) : HeaderBytes (putHeader e h m) (wireHeader e h) := by
  rw [headerBytes_iff]
  refine ⟨?_, ?_, ?_, ?_, ?_⟩ <;> intro k hk <;> simp only [putHeader, read_put32, read_put16] <;>
    interval_cases k <;> rfl

end Sys2Proof.Machine
end

