-- ==== Sys2Proof/Laws/PerInstr.lean ====
section
/-! SUPPORT. Statements about every command, one lemma a constructor. -/

namespace Sys2Proof.Laws.CommandFields

/-- A command's word has RSV = 0 and the command's own OP and FC in their places (30_encoding.md R48). -/
def Statement (i : Instr) : Prop :=
  cmdRsv (encodeCmd i) = 0 ∧ cmdFc (encodeCmd i) = fcOf i ∧ cmdOp (encodeCmd i) = opOf i ∧ i.wf = true

theorem nop : Statement .nop := by unfold Statement; decide
theorem encode : Statement .encode := by unfold Statement; decide
theorem encodeFc : Statement .encodeFc := by unfold Statement; decide
theorem decode : Statement .decode := by unfold Statement; decide
theorem clear : Statement .clear := by unfold Statement; decide

end Sys2Proof.Laws.CommandFields
end

