-- ==== Sys2Proof/Laws/Step.lean ====
section
/-! SUPPORT. The inversion lemma of the whole machine: the ways an input can be performed, each with the state it leaves.
The claims about every step go through it. -/

namespace Sys2Proof.Machine

/-- `Performed s x t`: the input x, performed at s, leaves t. One constructor for each way. -/
inductive Performed (s : State) : HostInput → State → Prop
  | reset : Performed s .reset s.hardwareReset
  | command (w : Word) (i : Instr) (t : State) (hd : decodeCmd w = .ok i) (he : exec i s = .next t) :
      Performed s (.access (.write .w32 (s.cfg.base + 0x000) w)) (t.answer .done)
  | illegal (w : Word) (r : DecodeError) (hd : decodeCmd w = .error r) :
      Performed s (.access (.write .w32 (s.cfg.base + 0x000) w)) ((s.raise .ill).answer .done)
  | status (v : Word) :
      Performed s (.access (.write .w32 (s.cfg.base + 0x004) v))
        (State.answer .done { s with block := s.block.clearErrors v })
  | seq (v : Word) :
      Performed s (.access (.write .w32 (s.cfg.base + 0x008) v))
        (State.answer .done { s with block := { s.block.invalidate with seq := v } })
  | ack (v : Word) :
      Performed s (.access (.write .w32 (s.cfg.base + 0x00C) v))
        (State.answer .done { s with block := { s.block.invalidate with ack := v } })
  | fin (v : Word) :
      Performed s (.access (.write .w32 (s.cfg.base + 0x010) v))
        (State.answer .done { s with block := { s.block.invalidate with fin := v.setWidth 16 } })
  | cor (v : Word) :
      Performed s (.access (.write .w32 (s.cfg.base + 0x014) v))
        (State.answer .done { s with block := { s.block.invalidate with cor := v.setWidth 16 } })
  | len (v : Word) :
      Performed s (.access (.write .w32 (s.cfg.base + 0x018) v))
        (State.answer .done { s with block := { s.block.invalidate with len := v } })
  | flen (v : Word) :
      Performed s (.access (.write .w32 (s.cfg.base + 0x01C) v)) (State.answer .done (s.writeFlen v))
  | ignoredWrite (off : Nat) (v : Word) (hlo : 0x020 ≤ off) (hhi : off < 0x400) :
      Performed s (.access (.write .w32 (s.cfg.base + off) v)) (s.answer .done)
  | frameWrite (i : Nat) (v : Word) (hi : i < s.cfg.bufSize) (hw : 0x400 + i < 0x1000) :
      Performed s (.access (.write .w8 (s.cfg.base + (0x400 + i)) v))
        (State.answer .done { s with block := s.block.writeFrameByte i (v.setWidth 8) })
  | tailWrite (i : Nat) (v : Word) (hi : s.cfg.bufSize ≤ i) :
      Performed s (.access (.write .w8 (s.cfg.base + (0x400 + i)) v)) (s.answer .done)
  | busErrorWrite (w : Width) (off : Nat) (v : Word)
      (hb : (off < 0x400 ∧ ¬(w = .w32 ∧ off % 4 = 0)) ∨ (0x400 ≤ off ∧ w ≠ .w8)) :
      Performed s (.access (.write w (s.cfg.base + off) v)) s.busError
  | registerRead (off : Nat) (r : Reg) :
      Performed s (.access (.read .w32 (s.cfg.base + off))) (s.answer (.word (readReg r s)))
  | frameRead (i : Nat) (b : Byte) (hb : s.block.fbuf.read i = some b) :
      Performed s (.access (.read .w8 (s.cfg.base + (0x400 + i)))) (s.answer (.byte b))
  | tailRead (i : Nat) : Performed s (.access (.read .w8 (s.cfg.base + (0x400 + i)))) (s.answer (.byte 0x00#8))
  | busErrorRead (w : Width) (off : Nat) : Performed s (.access (.read w (s.cfg.base + off))) s.busError

/-- A register write that goes on is one of the ways. -/
theorem performed_of_writeReg {s t : State} {off : Nat} {v : Word} (hoff : off < 0x400) (hal : off % 4 = 0)
    (h : answerDone (writeReg (regAt off) v s) = .next t) :
    Performed s (.access (.write .w32 (s.cfg.base + off) v)) t := by
  obtain ⟨u, hu, rfl⟩ := answerDone_eq_next h
  rcases regAt_cases off with ⟨r, hr, rfl, hreg⟩ | hreg
  · rw [hreg] at hu
    cases r with
    | cmd =>
      simp only [writeReg, startCommand] at hu
      split at hu
      · next i hd => exact .command v i u hd hu
      · next r hd => cases hu; exact .illegal v r hd
    | status => cases hu; exact .status v
    | seq => cases hu; exact .seq v
    | ack => cases hu; exact .ack v
    | fin => cases hu; exact .fin v
    | cor => cases hu; exact .cor v
    | len => cases hu; exact .len v
    | flen => cases hu; exact .flen v
    | pavail => cases hu; exact .ignoredWrite _ v (by decide) hoff
    | cfg => cases hu; exact .ignoredWrite _ v (by decide) hoff
    | reserved => exact absurd rfl hr
  · have hlo : 0x020 ≤ off := by
      by_contra hlt
      have : off < 0x020 := by omega
      interval_cases off <;> first | omega | (simp [regAt] at hreg)
    rw [hreg] at hu
    cases hu
    exact .ignoredWrite off v hlo hoff

/-- Every input that leaves a next state is performed in one of the ways. -/
theorem performed_of_next {x : HostInput} {s t : State} (h : performInput x s = .next t) : Performed s x t := by
  cases x with
  | reset => cases h; exact .reset
  | access a =>
    rcases access_cases a s with ⟨_, hf⟩ | ⟨off, hoff, ⟨w, rfl, ha⟩ | ⟨w, v, rfl, ha⟩⟩
    · rw [performInput, hf] at h; cases h
    · rw [performInput, ha] at h
      rcases target_cases s.cfg w off with ⟨_, rfl, _, ht⟩ | ⟨hlo, rfl, hb, ht⟩ | ⟨hlo, rfl, hb, ht⟩ | ⟨_, ht⟩ <;>
        rw [ht] at h
      · cases h; exact .registerRead off _
      · obtain ⟨i, rfl⟩ : ∃ i, off = 0x400 + i := ⟨off - 0x400, by omega⟩
        simp only [readTarget, Nat.add_sub_cancel_left] at h
        split at h
        · next b hr => cases h; exact .frameRead i b hr
        · cases h
      · obtain ⟨i, rfl⟩ : ∃ i, off = 0x400 + i := ⟨off - 0x400, by omega⟩
        cases h; exact .tailRead i
      · cases h; exact .busErrorRead w off
    · rw [performInput, ha] at h
      rcases target_cases s.cfg w off with ⟨hlt, rfl, hal, ht⟩ | ⟨hlo, rfl, hb, ht⟩ | ⟨hlo, rfl, hb, ht⟩ | ⟨hb, ht⟩ <;>
        rw [ht] at h
      · exact performed_of_writeReg hlt hal h
      · obtain ⟨i, rfl⟩ : ∃ i, off = 0x400 + i := ⟨off - 0x400, by omega⟩
        simp only [writeTarget, Nat.add_sub_cancel_left] at h hb
        cases h; exact .frameWrite i v hb hoff
      · obtain ⟨i, rfl⟩ : ∃ i, off = 0x400 + i := ⟨off - 0x400, by omega⟩
        simp only [Nat.add_sub_cancel_left] at hb
        cases h; exact .tailWrite i v hb
      · cases h; exact .busErrorWrite w off v hb

/-- A step to a next state, with an input waiting, performed that input. -/
theorem performed_of_step {s t : State} {x : HostInput} {rest : List HostInput} (hx : s.inputs = x :: rest)
    (h : step s = .next t) : Performed { s with inputs := rest } x t :=
  performed_of_next (by simpa [step, hx] using h)

/-! ## States that differ in the sticky bits and the answers at most -/

theorem agreeButErrors_refl (s : State) : AgreeButErrors s s := rfl

theorem agreeButErrors_symm {s s' : State} (h : AgreeButErrors s s') : AgreeButErrors s' s := by
  unfold AgreeButErrors at h ⊢
  rw [h]

theorem agreeButErrors_cfg {s s' : State} (h : AgreeButErrors s s') : s'.cfg = s.cfg := by rw [h]
theorem agreeButErrors_inputs {s s' : State} (h : AgreeButErrors s s') : s'.inputs = s.inputs := by rw [h]
theorem agreeButErrors_raised {s s' : State} (h : AgreeButErrors s s') : s'.raised = s.raised := by rw [h]
theorem agreeButErrors_fbuf {s s' : State} (h : AgreeButErrors s s') : s'.block.fbuf = s.block.fbuf := by rw [h]
theorem agreeButErrors_flen {s s' : State} (h : AgreeButErrors s s') : s'.block.flen = s.block.flen := by rw [h]
theorem agreeButErrors_header {s s' : State} (h : AgreeButErrors s s') : s'.block.header = s.block.header := by
  rw [h]; rfl

/-! ## MemRead and MemWrite at the offsets of the map -/

/-- A write at a named register's offset is that register's write, answered. -/
theorem memWrite_register {r : Reg} (hr : r ≠ .reserved) (v : Word) (s : State) :
    memWrite .w32 r.offset v s = answerDone (writeReg r v s) := by
  rw [memWrite, access_write_offset _ _ _ (by cases r <;> decide)]
  cases r with
  | reserved => exact absurd rfl hr
  | _ => rfl

/-- A read at a named register's offset answers that register's value. -/
theorem memRead_register {r : Reg} (hr : r ≠ .reserved) (s : State) :
    memRead .w32 r.offset s = .next (s.answer (.word (readReg r s))) := by
  rw [memRead, access_read_offset _ _ (by cases r <;> decide)]
  cases r with
  | reserved => exact absurd rfl hr
  | _ => rfl

/-- The byte FBUF[i] lies at offset 0x400 + i. -/
theorem target_frameByte {c : Config} {i : Nat} (hi : i < c.bufSize) : target c .w8 (0x400 + i) = .frameByte i := by
  rcases target_cases c .w8 (0x400 + i) with ⟨h, _⟩ | ⟨_, _, _, h⟩ | ⟨_, _, h, _⟩ | ⟨h | h, _⟩
  · omega
  · simpa using h
  · omega
  · omega
  · exact absurd rfl h.2

/-- With legal parameters the whole of FBUF lies in the window (20_memory.md R26). -/
theorem frameByte_in_window {c : Config} (hc : c.wf = true) {i : Nat} (hi : i < c.bufSize) : 0x400 + i < 0x1000 := by
  simp only [Config.wf, Config.capacityOk, Bool.and_eq_true, decide_eq_true_eq] at hc
  simp only [Config.bufSize, hdrSize] at hi
  omega

end Sys2Proof.Machine
end

