-- ==== Sys2Proof/Laws/Program.lean ====
section
/-! SUPPORT. Issuing a line, and running a program a line and an access at a time. -/

namespace Sys2Proof.Machine

@[simp] theorem issue_cfg (l : Line) (s : State) : (s.issue l).cfg = s.cfg := rfl
@[simp] theorem issue_block (l : Line) (s : State) : (s.issue l).block = s.block := rfl
@[simp] theorem issue_inputs (l : Line) (s : State) : (s.issue l).inputs = l.inputs s ++ s.inputs := rfl
@[simp] theorem issue_answers (l : Line) (s : State) : (s.issue l).answers = s.answers := rfl
@[simp] theorem issue_raised (l : Line) (s : State) : (s.issue l).raised = s.raised := rfl

/-- A run whose first step goes on is the rest of the run from there. -/
theorem run_succ_of_next {s t : State} (n : Nat) (h : step s = .next t) : core.run (n + 1) s = core.run n t := by
  have h' : core.step s = .next t := h
  simp only [Host.Core.run, h']

/-- A run whose first step faults is that fault. -/
theorem run_succ_of_fault {s : State} {r : Fault} (n : Nat) (h : step s = .fault r) : core.run (n + 1) s = .fault r := by
  have h' : core.step s = .fault r := h
  simp only [Host.Core.run, h']

/-- A program of one line is that line's accesses performed. -/
@[simp] theorem runProgram_singleton (l : Line) (s : State) :
    runProgram [l] s = core.run (l.inputs s).length (s.issue l) := by
  simp only [runProgram]
  split <;> next h => exact h.symm

/-- The next step, where a byte read of FBUF[i] is the first input. -/
theorem step_frameRead {s : State} {rest : List HostInput} {i : Nat} (hc : s.cfg.wf = true) (hi : i < s.cfg.bufSize)
    (hx : s.inputs = .access (.read .w8 (s.cfg.base + (0x400 + i))) :: rest) :
    step s = readTarget (.frameByte i) { s with inputs := rest } := by
  rw [step, hx]
  have := access_read_offset .w8 { s with inputs := rest } (frameByte_in_window hc hi)
  rw [target_frameByte hi] at this
  exact this

end Sys2Proof.Machine
end

