-- ==== Sys2Proof/Tests/Slice0.lean ====
section
/-! SUPPORT. Tests. Expected values come from spec/95_test_vectors.md (the vector is named in each docstring) or are
written out by hand from the rule named. Then a witness for the hypotheses of each statement that has any. -/

namespace Sys2Proof.Machine.Tests

/-! ## Helpers -/

/-- The next state's field, if there is a next state. -/
def next? {α : Type} (r : Result) (f : State → α) : Option α :=
  match r with
  | .next s => some (f s)
  | .fault _ => none
  | .refused _ => none

/-- The fault, if there is one. -/
def fault? (r : Result) : Option Fault :=
  match r with
  | .next _ => none
  | .fault f => some f
  | .refused _ => none

/-- The reference parameters with the other byte order, at another base. -/
def littleConfig : Config := { maxPayload := 1024, endian := .little, base := 0x5000 }

/-- A state with this block, in the reference machine. -/
def big (b : Block) : State := { State.reset with block := b }

/-- A state with this block, in the little-endian machine. -/
def little (b : Block) : State := { State.resetOf littleConfig with block := b }

/-- A block with these field registers, else as after reset. -/
def fields (s a : Word) (f c : Half) (l : Word) : Block :=
  { Block.reset with seq := s, ack := a, fin := f, cor := c, len := l }

/-- A block that received this frame: its bytes from FBUF[0] on, and FLEN. -/
def received (bs : List Byte) (flen : Word) : Block :=
  { Block.reset with fbuf := (List.range bs.length).zip bs, flen := flen }

/-- FBUF[0..15]. -/
def header16 (s : State) : List (Option Byte) := (List.range 16).map s.block.fbuf.read

/-- FLEN, PAVAIL and STATUS. -/
def counts (s : State) : Word × Word × Word := (s.block.flen, s.block.pavail, statusWord s.cfg s.block)

/-- SEQ, ACK, FIN, COR and LEN. -/
def fieldsOf (s : State) : Word × Word × Half × Half × Word :=
  (s.block.seq, s.block.ack, s.block.fin, s.block.cor, s.block.len)

/-- EN1's header bytes. -/
def en1 : List Byte := [0x00, 0x00, 0x04, 0x00, 0x00, 0x00, 0x00, 0x00, 0x00, 0x00, 0x00, 0x00, 0x00, 0x00, 0x04, 0x00]

/-- A block with all three sticky bits set: STATUS = 0x00000700. -/
def errorBlock : Block := { Block.reset with eMalf := true, eIll := true, eOvr := true }

/-! ## Command words: RSV (27 bits), FC, OP, written out from 30_encoding.md R48 and R49 -/

theorem test_decode_nop : decodeCmd (0#27 ++ 0#1 ++ 0x0#4) = .ok .nop := by rfl
theorem test_decode_encode : decodeCmd (0#27 ++ 0#1 ++ 0x1#4) = .ok .encode := by rfl
theorem test_decode_encodeFc : decodeCmd (0#27 ++ 1#1 ++ 0x1#4) = .ok .encodeFc := by rfl
theorem test_decode_decode : decodeCmd (0#27 ++ 0#1 ++ 0x2#4) = .ok .decode := by rfl
theorem test_decode_clear : decodeCmd (0#27 ++ 0#1 ++ 0x3#4) = .ok .clear := by rfl

/-- ER1, ER5: OP reserved. -/
theorem test_decode_reserved_op :
    decodeCmd 0x00000004#32 = .error .reservedOp ∧ decodeCmd 0x0000000F#32 = .error .reservedOp := ⟨rfl, rfl⟩

/-- ER2, ER4, ER6: FC with DECODE, CLEAR and NOP. -/
theorem test_decode_fc_without_encode :
    decodeCmd 0x00000012#32 = .error .fcWithoutEncode ∧ decodeCmd 0x00000013#32 = .error .fcWithoutEncode ∧
      decodeCmd 0x00000010#32 = .error .fcWithoutEncode := ⟨rfl, rfl, rfl⟩

/-- ER3 and R50's own example: RSV set. -/
theorem test_decode_reserved_bits :
    decodeCmd 0x80000001#32 = .error .reservedBitsSet ∧ decodeCmd 0x80000002#32 = .error .reservedBitsSet := ⟨rfl, rfl⟩

/-- The table's entry point, with the words as the table numbers them. -/
theorem test_decodeTableWord :
    decodeTableWord 32 0x11 = some .encodeFc ∧ decodeTableWord 32 0x12 = none ∧ decodeTableWord 32 3 = some .clear := by
  decide

/-! ## WellFormed: an ill-formed term for each check -/

theorem test_wf_capacity_low : Config.capacityOk { Config.reference with maxPayload := 0 } = false := by decide
theorem test_wf_capacity_high : Config.capacityOk { Config.reference with maxPayload := 3057 } = false := by decide
theorem test_wf_base : Config.baseOk { Config.reference with base := 0x1004 } = false := by decide
theorem test_wf_config : Config.wf { Config.reference with base := 1 } = false ∧ Config.reference.wf = true := by decide
theorem test_wf_wr32_offset : Txn.wf (.wr32 0x400 0) = false ∧ Txn.wf (.wr32 0x3FC 0) = true := by decide
theorem test_wf_wr32_alignment : Txn.wf (.wr32 0x002 0) = false := by decide
theorem test_wf_wr8_offset : Txn.wf (.wr8 0x3FF 0) = false ∧ Txn.wf (.wr8 0x1000 0) = false := by decide
theorem test_wf_rxframe : Pseudo.wf Config.reference (.rxframe 2#32 [0x01]) = false := by decide

theorem test_wf_line : Line.wf Config.reference (.txn (.wr8 0x3FF 0)) = false ∧
    Line.wf Config.reference (.pseudo (.rxframe 2#32 [0x01])) = false := by decide

/-- A command has no operand, so no term of Instr is ill-formed; the check's two parts are not vacuous (fcOf and opOf). -/
theorem test_wf_instr : (∀ i : Instr, i.wf = true) ∧ fcOf .encodeFc = true ∧ opOf .decode ≠ 1 := by
  refine ⟨fun i => ?_, by decide, by decide⟩
  cases i <;> decide

/-! ## ENCODE and ENCODE.FC (95_test_vectors.md section 2) -/

/-- EN1: FLEN 1040, PAVAIL 1024, STATUS 2, and its bytes. -/
theorem test_encode_en1 : next? (exec .encode (big (fields 0x400 0 0 0 0x400))) (fun s => (header16 s, counts s)) =
    some (en1.map some, 1040#32, 1024#32, 0x00000002#32) := by decide

/-- EN9: the largest LEN is clamped and reported, not read as -1. -/
theorem test_encode_en9 : next? (exec .encode (big (fields 0 0 0 0 0xFFFFFFFF))) counts =
    some (1040#32, 1024#32, 0x00000042#32) := by decide

/-- EN11: FC "regardless of the caller-supplied flag"; COR still reads 0xFFFF. -/
theorem test_encodeFc_en11 :
    next? (exec .encodeFc (big (fields 0 0 0 0xFFFF 0))) (fun s => (s.block.fbuf.read 10, s.block.fbuf.read 11, s.block.cor,
      counts s)) = some (some 0x00#8, some 0x01#8, 0xFFFF#16, 16#32, 0#32, 0x00000022#32) := by decide

/-- EN5 LE: the forced flag in the other byte order. -/
theorem test_encodeFc_en5_little : next? (exec .encodeFc (little (fields 0x400 0x800 0 0 0))) header16 =
    some ([0x00, 0x04, 0x00, 0x00, 0x00, 0x08, 0x00, 0x00, 0x00, 0x00, 0x01, 0x00, 0x00, 0x00, 0x00, 0x00].map
      (fun n => some (n : Byte))) := by decide

/-- EN3 and EN3 LE: every field in both orders, by the wire form of 30_encoding.md R45. -/
theorem test_wire_en3 :
    wireHeader .big { seq := 0x12345678, ack := 0x9ABCDEF0, fin := 1, cor := 0, len := 5 } =
        [0x12, 0x34, 0x56, 0x78, 0x9A, 0xBC, 0xDE, 0xF0, 0x00, 0x01, 0x00, 0x00, 0x00, 0x00, 0x00, 0x05] ∧
      wireHeader .little { seq := 0x12345678, ack := 0x9ABCDEF0, fin := 1, cor := 0, len := 5 } =
        [0x78, 0x56, 0x34, 0x12, 0xF0, 0xDE, 0xBC, 0x9A, 0x01, 0x00, 0x00, 0x00, 0x05, 0x00, 0x00, 0x00] := by decide

/-! ## DECODE (95_test_vectors.md section 3) -/

/-- DC5: the corrupted flag. -/
theorem test_decode_dc5 :
    next? (exec .decode (big (received
      [0x00, 0x00, 0x04, 0x00, 0x00, 0x00, 0x00, 0x00, 0x00, 0x00, 0x00, 0x01, 0x00, 0x00, 0x04, 0x00] 1040)))
      (fun s => (fieldsOf s, counts s)) =
    some ((0x400#32, 0#32, 0#16, 1#16, 0x400#32), 1040#32, 1024#32, 0x00000009#32) := by decide

/-- DC2 LE: EN1's bytes in the other order, LENOVR. -/
theorem test_decode_dc2_little :
    next? (exec .decode (little (received en1 1040))) (fun s => (fieldsOf s, counts s)) =
      some ((0x00040000#32, 0#32, 0#16, 0#16, 0x00040000#32), 1040#32, 1024#32, 0x00000041#32) := by decide

/-- DC3: FLEN = 15 fails, although no byte has a value. -/
theorem test_decode_dc3 : next? (exec .decode (big (received [] 15))) counts = some (15#32, 0#32, 0x00000100#32) := by
  decide

/-- DC10: FBUF[15] never written. -/
theorem test_decode_dc10 : fault? (exec .decode (big (received (en1.take 15) 16))) = some .undefinedByte := by decide

/-! ## NOP and CLEAR (95_test_vectors.md section 4.1) -/

/-- R67's corner: a NOP leaves the error bits. -/
theorem test_nop : next? (exec .nop (big errorBlock)) counts = some (0#32, 0#32, 0x00000700#32) := by decide

/-- CT2: registers and STATUS are 0, the header is kept, FBUF[16] is still ⊥. -/
theorem test_clear_ct2 :
    next? (exec .clear (big { received en1 1040 with rxv := true, eOvr := true, seq := 0x400, pavail := 1024 }))
      (fun s => (header16 s, s.block.fbuf.read 16, fieldsOf s, counts s)) =
    some (en1.map some, none, (0#32, 0#32, 0#16, 0#16, 0#32), 0#32, 0#32, 0x00000000#32) := by decide

/-! ## Host accesses (95_test_vectors.md section 4.2) -/

/-- HA1: CFG in both machines. -/
theorem test_cfg_ha1 : next? (memRead .w32 0x024 State.reset) State.answers = some [.word 0x11100400#32] ∧
    next? (memRead .w32 0x024 (State.resetOf littleConfig)) State.answers = some [.word 0x10100400#32] := by decide

/-- HA5 and HA6: the first offset past FBUF and the last of the window. -/
theorem test_tail_ha5_ha6 : next? (memRead .w8 0x810 State.reset) State.answers = some [.byte 0x00#8] ∧
    next? (memWrite .w8 0xFFF 0x12 (big { Block.reset with txv := true })) (fun s => s.block.txv) = some true := by
  decide

/-- HA7 to HA9: wrong width, wrong alignment, wrong window. -/
theorem test_bus_error_ha7_ha9 : next? (memRead .w8 0x004 State.reset) State.answers = some [.busError] ∧
    next? (memWrite .w32 0x002 0 State.reset) State.answers = some [.busError] ∧
      next? (memRead .w32 0x400 State.reset) State.raised = some [.busError] := by decide

/-- HA10: FIN keeps bits 15:0, and FINF follows. -/
theorem test_fin_ha10 : next? (memWrite .w32 0x010 0x12340001 State.reset) (fun s => (s.block.fin, counts s)) =
    some (0x0001#16, 0#32, 0#32, 0x00000004#32) := by decide

/-- HA12 and HA14: a byte read before and after a byte write that keeps b[7:0]. -/
theorem test_fbuf_ha12_ha14 : fault? (memRead .w8 0x400 State.reset) = some .undefinedByte ∧
    next? (memWrite .w8 0x400 0x1FF State.reset) (fun s => s.block.fbuf.read 0) = some (some 0xFF#8) := by decide

/-- DC16, DC17, DC18: FLEN at, one above and far above BUF_SIZE. -/
theorem test_flen_dc16_dc18 : next? (memWrite .w32 0x01C 1040 State.reset) counts = some (1040#32, 0#32, 0#32) ∧
    next? (memWrite .w32 0x01C 1041 State.reset) counts = some (1040#32, 0#32, 0x00000400#32) ∧
      next? (memWrite .w32 0x01C 0xFFFFFFFF State.reset) counts = some (1040#32, 0#32, 0x00000400#32) := by decide

/-- ER7: an illegal word leaves TXV. -/
theorem test_illegal_er7 : next? (memWrite .w32 0x000 5 (big { Block.reset with txv := true })) counts =
    some (0#32, 0#32, 0x00000202#32) := by decide

/-- ER8, ER9, ER10: W1C. -/
theorem test_w1c_er8_er10 : next? (memWrite .w32 0x004 0x200 (big errorBlock)) counts = some (0#32, 0#32, 0x500#32) ∧
    next? (memWrite .w32 0x004 0xFF (big errorBlock)) counts = some (0#32, 0#32, 0x700#32) ∧
      next? (memWrite .w32 0x004 0x700 (big errorBlock)) counts = some (0#32, 0#32, 0#32) := by decide

/-- The first step after reset with ENCODE as its word runs ENCODE: TXV is set and FLEN is 16 (EN6). -/
theorem test_step_withFetchWord :
    next? (step (State.reset.withFetchWord 32 1)) counts = some (16#32, 0#32, 0x00000002#32) := by decide

/-- R9: 0xFFFFFFFF reads as -1 to a consumer (EN7). -/
theorem test_signed_en7 : signedReading 0xFFFFFFFF#32 = -1 ∧ signedReading 0x80000000#32 = -(2 ^ 31) := by decide

/-- R53's expansions, from P1's transactions and CLRERR. -/
theorem test_expand_p1 : (Pseudo.wrbuf 16 [0x41, 0x42]).expand 0 = [.wr8 0x410 0x41, .wr8 0x411 0x42] ∧
    Pseudo.txread.expand 2 = [.rd32 0x01C, .rd8 0x400, .rd8 0x401] ∧
      Pseudo.clrerr.expand 0 = [.wr32 0x004 0x700] := by decide

/-- R53: a TXREAD after a write of FLEN reads as many bytes as that write left in FLEN, not as many as at the start. -/
theorem test_program_txread :
    next? (runProgram [.txn (.wr32 0x01C 2), .pseudo .txread] (big (received [0x41, 0x42, 0x43] 0))) State.answers =
      some [.byte 0x42#8, .byte 0x41#8, .word 2#32, .done] := by decide

/-! ## Witnesses: a state and operands that meet the hypotheses of each statement that has any -/

/-- The host writes v to the register at off, next. -/
def writing (off : Nat) (v : Word) (b : Block) : State :=
  { big b with inputs := [.access (.write .w32 (0 + off) v)] }

/-- The host writes a byte to FBUF[i], next. -/
def writingByte (i : Nat) (v : Word) (b : Block) : State :=
  { big b with inputs := [.access (.write .w8 (0 + (0x400 + i)) v)] }

/-- The host resets the block, next. -/
def resetting (b : Block) : State := { big b with inputs := [.reset] }

/-- A block whose header is EN1's, received whole. -/
def en1Block : Block := received en1 16

theorem header_valued_en1 : HeaderValued en1Block.fbuf := by
  unfold HeaderValued
  decide

theorem witness_IllegalWordOnlyRaisesEIll : ¬LegalWord 0x00000004#32 ∧ ¬LegalWord 0x00000010#32 ∧
    ¬LegalWord 0x00000020#32 := by
  unfold LegalWord
  decide

theorem witness_StepRunsTheDecodedCommand :
    (writing 0x000 2 en1Block).inputs = .access (.write .w32 ((writing 0x000 2 en1Block).cfg.base + 0x000) 2) :: [] ∧
      decodeCmd 2 = .ok .decode := ⟨rfl, rfl⟩

/-- An access, a reset and no input at all, each ending in a next state. -/
theorem witness_StepPerformsOneInputInOrder :
    (∃ t, step (writing 0x008 7 en1Block) = .next t) ∧ (∃ t, step (resetting en1Block) = .next t) ∧
      ∃ t, step State.reset = .next t := ⟨⟨_, rfl⟩, ⟨_, rfl⟩, ⟨_, rfl⟩⟩

/-- A buffer in canonical form, for the second ENCODE. -/
theorem witness_EncodeBuildsTheFrame :
    (Instr.encodeFc = .encode ∨ Instr.encodeFc = .encodeFc) ∧ (big en1Block).block.fbuf.wf := by decide

theorem witness_EncodeFcForcesTheCorruptedField :
    (big (fields 0 0 0 1 0)).block.cor = 0x0001#16 ∧ (big (fields 0 0 0 1 0)).cfg.wf = true ∧
      cmdFc 0x00000012#32 = true ∧ cmdOp 0x00000012#32 ≠ 1 := by decide

/-- LEN = 2 and an unwritten payload byte inside the extent (EN17). -/
theorem witness_PayloadExtentBoundsTheFrame :
    (big (fields 0 0 0 0 2)).cfg.wf = true ∧ (big (fields 0 0 0 0 2)).block.fbuf.read 16 = none ∧
      next? (exec .encode (big (fields 0 0 0 0 2))) (fun t => decide (16 < t.block.flen.toNat)) = some true := by decide

theorem witness_OutgoingFrameIsHeaderThenPayload : State.reset.cfg.wf = true ∧ (little en1Block).cfg.wf = true := by
  decide

theorem witness_EncodeHasNoErrorPath : Instr.encode = .encode ∨ Instr.encode = .encodeFc := .inl rfl

/-- FLEN = 16 and FLEN = 15, the boundary of the clauses; and an unwritten byte at FLEN = 16. -/
theorem witness_DecodeLoadsTheHeader :
    (16 ≤ (big en1Block).block.flen.toNat ∧ HeaderValued (big en1Block).block.fbuf) ∧
      (16 ≤ (big (received [] 16)).block.flen.toNat ∧ ¬HeaderValued (big (received [] 16)).block.fbuf) ∧
        (big (received en1 15)).block.flen.toNat < 16 :=
  ⟨⟨by decide, header_valued_en1⟩, ⟨by decide, fun h => h 0 (by decide) rfl⟩, by decide⟩

theorem witness_ShortFrameDecodeFails :
    (big (received en1 15)).block.flen.toNat < 16 ∧ State.reset.block.flen.toNat < 16 := by decide

/-- Two states that agree on FLEN and the header alone. -/
theorem witness_DecodeReadsOnlyTheHeader :
    (big (received (en1 ++ [0x55]) 16)).cfg.endian = (big { en1Block with fin := 1 }).cfg.endian ∧
      (big (received (en1 ++ [0x55]) 16)).block.flen = (big { en1Block with fin := 1 }).block.flen ∧
        16 ≤ (big { en1Block with fin := 1 }).block.flen.toNat ∧
          ∀ k, k < 16 → (big (received (en1 ++ [0x55]) 16)).block.fbuf.read k =
            (big { en1Block with fin := 1 }).block.fbuf.read k := by decide

/-- A frame built by ENCODE.FC, and the same state with a payload byte written at FBUF[16] since. -/
def built : State := serialize true (big (fields 1 2 3 4 5))
def builtThenPayload : State := { built with block := built.block.writeFrameByte 16 0x55#8 }

theorem exec_encodeFc_built : exec .encodeFc (big (fields 1 2 3 4 5)) = .next built := by
  unfold built exec execEncodeFc
  rfl

/-- The state between: FLEN and the header are as ENCODE.FC left them, TXV is not. -/
theorem witness_HeaderRoundTrip :
    (big (fields 1 2 3 4 5)).cfg.wf = true ∧ exec .encodeFc (big (fields 1 2 3 4 5)) = .next built ∧
      builtThenPayload.cfg = built.cfg ∧ builtThenPayload.block.header = built.block.header ∧
        builtThenPayload.block.flen = built.block.flen ∧
          ∀ k, k < 16 → builtThenPayload.block.fbuf.read k = built.block.fbuf.read k :=
  ⟨by decide, exec_encodeFc_built, by decide, by decide, by decide, by decide⟩

theorem witness_CommandsTouchOnlyTheBlock :
    (∃ t, exec .decode (big en1Block) = .next t) ∧ ∃ t, exec .decode State.reset = .next t := ⟨⟨_, rfl⟩, ⟨_, rfl⟩⟩

/-- The last register offset. -/
theorem witness_RegisterReadsAnswerTheirValues : 0x3FC < 0x400 ∧ 0x3FC % 4 = 0 := by decide

/-- A read of each kind: a register, a valued byte, the tail and a bus error. -/
theorem witness_ReadsChangeNoState :
    (∃ t, access (.read .w32 0x004) (big en1Block) = .next t) ∧ (∃ t, access (.read .w8 0x40F) (big en1Block) = .next t) ∧
      (∃ t, access (.read .w8 0xFFF) (big en1Block) = .next t) ∧ ∃ t, access (.read .w16 0x004) (big en1Block) = .next t :=
  ⟨⟨_, rfl⟩, ⟨_, rfl⟩, ⟨_, rfl⟩, ⟨_, rfl⟩⟩

theorem witness_CommandPortRunsTheCommand : ¬LegalWord 0x00000005#32 := by
  unfold LegalWord
  decide

/-- BUF_SIZE and one above it, where the clauses meet. -/
theorem witness_FlenWriteClampsToTheBuffer :
    State.reset.cfg.bufSize < (1041#32).toNat ∧ (1040#32).toNat ≤ State.reset.cfg.bufSize := by decide

/-- The first and the last byte of FBUF; a valued and an unwritten one. -/
theorem witness_FrameByteAccess :
    (big en1Block).cfg.wf = true ∧ 0 < (big en1Block).cfg.bufSize ∧ 1039 < (big en1Block).cfg.bufSize ∧
      (big en1Block).block.fbuf.read 0 = some 0x00#8 ∧ (big en1Block).block.fbuf.read 1039 = none := by decide

theorem witness_ReservedRegistersReadZero :
    (0x028 ≤ 0x028 ∧ 0x028 ≤ 0x3FC ∧ 0x028 % 4 = 0) ∧ (0x028 ≤ 0x3FC ∧ 0x3FC ≤ 0x3FC ∧ 0x3FC % 4 = 0) := by decide

theorem witness_BufferTailReadsZero :
    (State.reset.cfg.bufSize ≤ 1040 ∧ 0x400 + 1040 ≤ 0xFFF) ∧ (State.reset.cfg.bufSize ≤ 0xBFF ∧ 0x400 + 0xBFF ≤ 0xFFF) := by
  decide

theorem witness_RegisterWindowTakesAlignedWordsOnly :
    (0x3FF < 0x400 ∧ ¬(Width.w32 = .w32 ∧ 0x3FF % 4 = 0)) ∧ (0x000 < 0x400 ∧ ¬(Width.w8 = .w32 ∧ 0x000 % 4 = 0)) := by decide

theorem witness_BufferWindowTakesBytesOnly :
    (0x400 ≤ 0x400 ∧ 0x400 ≤ 0xFFF ∧ Width.w32 ≠ .w8) ∧ (0x400 ≤ 0xFFF ∧ 0xFFF ≤ 0xFFF ∧ Width.w16 ≠ .w8) := by decide

/-- The last address below the window and the first above it. -/
theorem witness_AccessOutsideTheWindowFaults :
    (Access.read .w8 0x4FFF).addr < (State.resetOf littleConfig).cfg.base ∧
      (State.resetOf littleConfig).cfg.base + 0x1000 ≤ (Access.read .w32 0x6000).addr := by decide

theorem witness_FieldReadUndoesFieldWrite :
    Memory.read en1Block.fbuf 12 = some 0x00#8 ∧ Memory.read en1Block.fbuf 13 = some 0x00#8 ∧
      Memory.read en1Block.fbuf 14 = some 0x04#8 ∧ Memory.read en1Block.fbuf 15 = some 0x00#8 := by decide

/-- The ends of the capacity's range. -/
theorem witness_ConfigWordHoldsTheParameters :
    (State.resetOf { Config.reference with maxPayload := 1 }).cfg.wf = true ∧
      (State.resetOf { littleConfig with maxPayload := 3056 }).cfg.wf = true := by decide

/-- A DECODE that fails and one that does not, from E_MALF = 0. -/
theorem witness_MalformedHeaderOnlyFromShortDecode :
    (∃ t, step (writing 0x000 2 Block.reset) = .next t ∧ (writing 0x000 2 Block.reset).block.eMalf = false) ∧
      16 ≤ (big en1Block).block.flen.toNat ∧ ∃ t, exec .decode (big en1Block) = .next t :=
  ⟨⟨_, rfl, rfl⟩, by decide, _, rfl⟩

theorem witness_IllegalCommandOnlyFromIllegalWord :
    (writing 0x000 5 Block.reset).inputs = .access (.write .w32 (0 + 0x000) 5) :: [] ∧
      (∃ t, step (writing 0x000 5 Block.reset) = .next t) ∧ (writing 0x000 5 Block.reset).block.eIll = false ∧
        ¬LegalWord 5 ∧ IsCommand Config.reference (.access (.write .w32 (0 + 0x000) 5)) 5 :=
  ⟨rfl, ⟨_, rfl⟩, rfl, by unfold LegalWord; decide, rfl⟩

theorem witness_OverrunOnlyFromLongFlen :
    (∃ t, step (writing 0x01C 1041 Block.reset) = .next t) ∧ (writing 0x01C 1041 Block.reset).block.eOvr = false ∧
      Config.reference.bufSize < (1041#32).toNat ∧
        Writes32 Config.reference (.access (.write .w32 (0 + 0x01C) 1041)) 0x01C 1041 :=
  ⟨⟨_, rfl⟩, rfl, by decide, rfl⟩

/-- All three bits set, and a step that clears one. -/
theorem witness_StickyBitsClearedOnlyByTheHost :
    (writing 0x004 0x100 errorBlock).block.eMalf = true ∧ (writing 0x004 0x100 errorBlock).block.eIll = true ∧
      (writing 0x004 0x100 errorBlock).block.eOvr = true ∧ ∃ t, step (writing 0x004 0x100 errorBlock) = .next t :=
  ⟨rfl, rfl, rfl, _, rfl⟩

/-- The host reads the register at off, next. -/
def reading (off : Nat) (b : Block) : State := { big b with inputs := [.access (.read .w32 (0 + off))] }

/-- s with all three sticky bits set, and an answer more. -/
def withErrors (s : State) : State :=
  { s with block := { s.block with eMalf := true, eIll := true, eOvr := true }, answers := .done :: s.answers }

/-- A step that faults, one that is answered alike and a STATUS read, each from a state with the bits set and one without. -/
theorem witness_StickyBitsNeverBlock :
    (AgreeButErrors (writing 0x000 2 (received [] 16)) (withErrors (writing 0x000 2 (received [] 16))) ∧
        step (writing 0x000 2 (received [] 16)) = .fault .undefinedByte) ∧
      (AgreeButErrors (reading 0x018 en1Block) (withErrors (reading 0x018 en1Block)) ∧
        ∃ t, step (reading 0x018 en1Block) = .next t) ∧
        AgreeButErrors (reading 0x004 en1Block) (withErrors (reading 0x004 en1Block)) ∧
          ∃ t, step (reading 0x004 en1Block) = .next t :=
  ⟨⟨rfl, rfl⟩, ⟨rfl, _, rfl⟩, rfl, _, rfl⟩

theorem witness_OneCausePerAccess : ∃ t, step (writing 0x000 5 Block.reset) = .next t := ⟨_, rfl⟩

/-- A state whose one sticky bit is in its log, and a step from it. -/
theorem witness_SetErrorBitsStayLogged :
    ErrorsLogged (State.raise .ill (writing 0x000 2 Block.reset)) ∧
      ∃ t, step (State.raise .ill (writing 0x000 2 Block.reset)) = .next t :=
  ⟨fun e => by cases e <;> decide, _, rfl⟩

/-- For RXV, TXV, the registers and the buffer bytes: a step of each kind of writer. -/
theorem witness_RxvSetOnlyByDecode :
    (∃ t, step (writing 0x000 2 en1Block) = .next t) ∧ (∃ t, step (writing 0x020 0 { en1Block with rxv := true }) = .next t) ∧
      WritesFrame Config.reference (.access (.write .w8 (0 + (0x400 + 1039)) 0)) :=
  ⟨⟨_, rfl⟩, ⟨_, rfl⟩, .inr ⟨1039, 0, by decide, rfl⟩⟩

theorem witness_TxvSetOnlyByEncode :
    (∃ t, step (writing 0x000 0x11 en1Block) = .next t) ∧
      WritesFrame Config.reference (.access (.write .w32 (0 + 0x01C) 0)) :=
  ⟨⟨_, rfl⟩, .inl ⟨0x01C, 0, by decide, rfl⟩⟩

/-- A step that changes SEQ, one that changes FLEN and one that changes PAVAIL. -/
theorem witness_RegistersChangeOnlyByTheirWriters :
    next? (step (writing 0x008 7 Block.reset)) (fun t => t.block.seq) = some 7#32 ∧
      next? (step (writing 0x01C 7 Block.reset)) (fun t => t.block.flen) = some 7#32 ∧
        next? (step (writing 0x000 1 (fields 0 0 0 0 5))) (fun t => t.block.pavail) = some 5#32 := by decide

theorem witness_BufferBytesChangeOnlyByTheirWriters :
    next? (step (writingByte 1039 0x155 Block.reset)) (fun t => t.block.fbuf.read 1039) = some (some 0x55#8) ∧
      next? (step (writing 0x000 1 Block.reset)) (fun t => t.block.fbuf.read 15) = some (some 0x00#8) ∧
        next? (step (resetting en1Block)) (fun t => t.block.fbuf.read 15) = some none := by decide

/-- The state after reset, and one after a reset input. -/
theorem witness_ResetLeavesTheStatedValues :
    State.reset = State.reset ∧ (resetting en1Block).inputs = .reset :: [] ∧
      ∃ t, step (resetting en1Block) = .next t ∧ t.cfg = (resetting en1Block).cfg := ⟨rfl, rfl, _, rfl, rfl⟩

theorem witness_ResetIsAGoodState : Config.wf Config.reference = true ∧ littleConfig.wf = true := by decide

/-- A good state with a frame in it, about to decode it. -/
theorem witness_StepKeepsGoodStates :
    (writing 0x000 2 en1Block).Inv ∧ ∃ t, step (writing 0x000 2 en1Block) = .next t :=
  ⟨{ cfgWf := by decide, flenBound := by decide, pavailBound := by decide, bufferCanonical := by decide
     bufferInside := by decide, validityExclusive := by decide }, _, rfl⟩

/-- A state with RXV = 1 whose promise holds, and a step from it. -/
theorem witness_RxvMeansADecodedFrame :
    RxvMeans (writing 0x000 0 { en1Block with seq := 0x400, len := 0x400, rxv := true }) ∧
      ∃ t, step (writing 0x000 0 { en1Block with seq := 0x400, len := 0x400, rxv := true }) = .next t :=
  ⟨fun _ => ⟨by unfold HeaderBytes; decide, by decide, by decide⟩, _, rfl⟩

/-- A state with TXV = 1 whose promise holds, and a step from it. -/
theorem witness_TxvMeansABuiltFrame :
    TxvMeans (writing 0x000 0 { received en1 1040 with seq := 0x400, len := 0x400, pavail := 1024, txv := true }) ∧
      Config.reference.wf = true ∧
        ∃ t, step (writing 0x000 0 { received en1 1040 with seq := 0x400, len := 0x400, pavail := 1024, txv := true }) =
          .next t :=
  ⟨fun _ => ⟨.inl (by unfold HeaderBytes; decide), by decide, by decide⟩, by decide, _, rfl⟩

/-- A whole datagram, an empty one, one of exactly BUF_SIZE bytes, and two longer than the buffer, the first by one byte. -/
theorem witness_RxframeLoadsTheDatagram :
    Config.reference.wf = true ∧ (Pseudo.rxframe 16#32 en1).wf Config.reference = true ∧
      (Pseudo.rxframe 0#32 []).wf Config.reference = true ∧
        (Pseudo.rxframe 1040#32 (List.replicate 1040 0x00#8)).wf Config.reference = true ∧
          (Pseudo.rxframe 1041#32 (List.replicate 1040 0x00#8)).wf Config.reference = true ∧
            (Pseudo.rxframe 2000#32 (List.replicate 1040 0x00#8)).wf Config.reference = true := by
  have hlen : ((List.replicate 1040 0x00#8).length == 1040) = true := by rw [List.length_replicate]; rfl
  exact ⟨by decide, by decide, by decide, hlen, hlen, hlen⟩

/-- A frame of valued bytes, an empty frame, FLEN = BUF_SIZE, and a frame with an unwritten byte. -/
theorem witness_TxreadReadsOutTheFrame :
    ((big en1Block).cfg.wf = true ∧ (big en1Block).block.flen.toNat ≤ (big en1Block).cfg.bufSize ∧
        (big en1Block).block.frame = en1.map some) ∧
      State.reset.block.frame = [].map some ∧ (big (received en1 1040)).block.flen.toNat ≤ Config.reference.bufSize ∧
        16 < (big (received en1 1040)).block.flen.toNat ∧ (big (received en1 1040)).block.fbuf.read 16 = none := by decide

end Sys2Proof.Machine.Tests
end

section
/-! SUPPORT. Command words as the encoder writes them, and which inputs are which kind of write. -/

namespace Sys2Proof.Machine

/-! ## Command words -/

/-- R48 and R49: the decoder gives back the command of every encoded word. -/
@[simp] theorem decodeCmd_encodeCmd (i : Instr) : decodeCmd (encodeCmd i) = .ok i := by cases i <;> decide

/-- R49: a word decodes to a command only by being that command's word. -/
theorem decodeCmd_eq_ok_iff {w : Word} {i : Instr} : decodeCmd w = .ok i ↔ w = encodeCmd i := by
  refine ⟨fun h => ?_, fun h => h ▸ decodeCmd_encodeCmd i⟩
  unfold decodeCmd at h
  split_ifs at h with h0 h1 h11 h2 h3 <;> cases h
  · exact h0.trans (by decide)
  · exact h1.trans (by decide)
  · exact h11.trans (by decide)
  · exact h2.trans (by decide)
  · exact h3.trans (by decide)

/-- Two commands with one word are one command. -/
@[simp] theorem encodeCmd_inj {i j : Instr} : encodeCmd i = encodeCmd j ↔ i = j :=
  ⟨fun h => Except.ok.inj ((decodeCmd_encodeCmd i).symm.trans (h ▸ decodeCmd_encodeCmd j)), congrArg encodeCmd⟩

/-! ## Which write an input is -/

section
variable (c : Config) (w : Width) (off off' : Nat) (v v' : Word)

theorem writes32_write_iff :
    Writes32 c (.access (.write w (c.base + off) v)) off' v' ↔ w = .w32 ∧ off = off' ∧ v = v' := by
  simp [Writes32]

theorem isCommand_write_iff :
    IsCommand c (.access (.write w (c.base + off) v)) v' ↔ w = .w32 ∧ off = 0 ∧ v = v' :=
  writes32_write_iff c w off 0 v v'

/-- The frame writes by width and offset: a 32-bit write of one of six registers, or a byte write inside FBUF. -/
theorem writesFrame_write_iff :
    WritesFrame c (.access (.write w (c.base + off) v)) ↔
      (w = .w32 ∧
        (off = 0x008 ∨ off = 0x00C ∨ off = 0x010 ∨ off = 0x014 ∨ off = 0x018 ∨ off = 0x01C)) ∨
      (w = .w8 ∧ 0x400 ≤ off ∧ off - 0x400 < c.bufSize) := by
  unfold WritesFrame
  refine or_congr ⟨?_, ?_⟩ ⟨?_, ?_⟩
  · rintro ⟨off', v', hoff, hw⟩
    obtain ⟨rfl, rfl, rfl⟩ := (writes32_write_iff c w off off' v v').1 hw
    exact ⟨rfl, hoff⟩
  · rintro ⟨rfl, hoff⟩
    exact ⟨off, v, hoff, rfl⟩
  · rintro ⟨i, v', hi, h⟩
    simp only [HostInput.access.injEq, Access.write.injEq, Nat.add_left_cancel_iff] at h
    obtain ⟨rfl, rfl, rfl⟩ := h
    exact ⟨rfl, by omega, by omega⟩
  · rintro ⟨rfl, hlo, hi⟩
    exact ⟨off - 0x400, v, hi, by rw [Nat.add_sub_cancel' hlo]⟩

theorem not_writesFrame_read (addr : Nat) : ¬WritesFrame c (.access (.read w addr)) := by
  rintro (⟨_, _, _, h⟩ | ⟨_, _, _, h⟩) <;> cases h
end

/-- An input that writes one command's word writes no other's. -/
theorem isCommand_encodeCmd_iff {c : Config} {x : HostInput} {i : Instr} (h : IsCommand c x (encodeCmd i)) (j : Instr) :
    IsCommand c x (encodeCmd j) ↔ i = j := by
  rw [h, isCommand_write_iff]
  simp

/-- A command write is no frame write and no reset. -/
theorem isCommand_not_frame_or_reset {c : Config} {x : HostInput} {w : Word} (h : IsCommand c x w) :
    ¬(WritesFrame c x ∨ x = .reset) := by
  rw [h, writesFrame_write_iff]
  simp

end Sys2Proof.Machine
end

section
/-! SUPPORT. The validity bits RXV and TXV (10_state.md R18, R19): how each command leaves them, how each input leaves
them, and the two statements. -/

namespace Sys2Proof.Machine

/-- After a command RXV is 1 when it was a DECODE of at least a header, or a NOP with RXV = 1. -/
theorem exec_rxv {i : Instr} {s t : State} (h : exec i s = .next t) :
    t.block.rxv = true ↔ (i = .decode ∧ 16 ≤ s.block.flen.toNat) ∨ (i = .nop ∧ s.block.rxv = true) := by
  cases i with
  | nop => cases h; simp
  | encode => cases h; simp [serialize]
  | encodeFc => cases h; simp [serialize]
  | clear => cases h; simp [Block.reset]
  | decode =>
    rw [exec_decode] at h
    rcases execDecode_cases s with ⟨hl, hd⟩ | ⟨hl, _, _, hd⟩ | ⟨_, _, hd⟩ <;> rw [hd] at h <;> cases h
    · simp [decodeFail, hl]
    · simp [loadHeader, hl]

/-- After a command TXV is 1 when it was an ENCODE of either form, or a NOP with TXV = 1. -/
theorem exec_txv {i : Instr} {s t : State} (h : exec i s = .next t) :
    t.block.txv = true ↔ i = .encode ∨ i = .encodeFc ∨ (i = .nop ∧ s.block.txv = true) := by
  cases i with
  | nop => cases h; simp
  | encode => cases h; simp [serialize]
  | encodeFc => cases h; simp [serialize]
  | clear => cases h; simp [Block.reset]
  | decode =>
    rw [exec_decode] at h
    rcases execDecode_cases s with ⟨_, hd⟩ | ⟨_, _, _, hd⟩ | ⟨_, _, hd⟩ <;> rw [hd] at h <;> cases h
    · simp [decodeFail]
    · simp [loadHeader]

/-- A write to FLEN clears both validity bits, clamped or not (R37). -/
theorem writeFlen_validity (v : Word) (s : State) :
    (s.writeFlen v).block.rxv = false ∧ (s.writeFlen v).block.txv = false := by
  unfold State.writeFlen
  split <;> simp

/-- The three ways an input can treat the validity bits: it runs a command; it writes the frame or resets, and both bits
fall; or it is none of these, and both bits stay. -/
theorem performed_validity_cases {s t : State} {x : HostInput} (h : Performed s x t) :
    (∃ i u, IsCommand s.cfg x (encodeCmd i) ∧ exec i s = .next u ∧ t.block = u.block) ∨
      ((WritesFrame s.cfg x ∨ x = .reset) ∧ t.block.rxv = false ∧ t.block.txv = false) ∨
      ((∀ i, ¬IsCommand s.cfg x (encodeCmd i)) ∧ ¬WritesFrame s.cfg x ∧ x ≠ .reset ∧
        t.block.rxv = s.block.rxv ∧ t.block.txv = s.block.txv) := by
  cases h with
  | reset => exact .inr (.inl ⟨.inr rfl, rfl, rfl⟩)
  | command w i u hd he =>
    obtain rfl := decodeCmd_eq_ok_iff.1 hd
    exact .inl ⟨i, u, rfl, he, rfl⟩
  | illegal w r hd =>
    refine .inr (.inr ⟨fun i hi => ?_, fun hw => ?_, nofun, by simp, by simp⟩)
    · obtain ⟨-, -, rfl⟩ := (isCommand_write_iff ..).1 hi
      simp at hd
    · exact isCommand_not_frame_or_reset (w := w) rfl (.inl hw)
  | seq | ack | fin | cor | len =>
    exact .inr (.inl ⟨.inl ((writesFrame_write_iff ..).2 (.inl ⟨rfl, by decide⟩)), rfl, rfl⟩)
  | flen v =>
    exact .inr (.inl ⟨.inl ((writesFrame_write_iff ..).2 (.inl ⟨rfl, by decide⟩)), writeFlen_validity v s⟩)
  | frameWrite i v hi hw => exact .inr (.inl ⟨.inl (.inr ⟨i, v, hi, rfl⟩), rfl, rfl⟩)
  | status v =>
    exact .inr (.inr ⟨by simp [isCommand_write_iff], by simp [writesFrame_write_iff], nofun, rfl, rfl⟩)
  | ignoredWrite off v hlo hhi =>
    refine .inr (.inr ⟨fun i => ?_, ?_, nofun, rfl, rfl⟩)
    · rw [isCommand_write_iff]; omega
    · rw [writesFrame_write_iff]
      rintro (⟨-, hoff⟩ | ⟨hw, -⟩)
      · omega
      · cases hw
  | tailWrite i v hi =>
    exact .inr (.inr ⟨by simp [isCommand_write_iff], by simp [writesFrame_write_iff, hi], nofun, rfl, rfl⟩)
  | busErrorWrite w off v hb =>
    refine .inr (.inr ⟨fun i => ?_, ?_, nofun, rfl, rfl⟩)
    · rw [isCommand_write_iff]
      rintro ⟨rfl, rfl, -⟩
      simp at hb
    · rw [writesFrame_write_iff]
      rintro (⟨rfl, hoff⟩ | ⟨rfl, hlo, -⟩)
      · obtain ⟨-, hna⟩ | ⟨hge, -⟩ := hb
        · exact hna ⟨rfl, by omega⟩
        · omega
      · obtain ⟨hlt, -⟩ | ⟨-, hne⟩ := hb
        · omega
        · exact hne rfl
  | registerRead | frameRead | tailRead | busErrorRead =>
    exact .inr (.inr ⟨fun _ => nofun, not_writesFrame_read _ _ _, nofun, rfl, rfl⟩)

/-- R18, of one performed input. -/
theorem performed_rxv {s t : State} {x : HostInput} (h : Performed s x t) :
    t.block.rxv = true ↔
      (IsCommand s.cfg x (encodeCmd .decode) ∧ 16 ≤ s.block.flen.toNat) ∨
        (s.block.rxv = true ∧
          ¬(IsCommand s.cfg x (encodeCmd .decode) ∨ IsCommand s.cfg x (encodeCmd .encode) ∨
            IsCommand s.cfg x (encodeCmd .encodeFc) ∨ IsCommand s.cfg x (encodeCmd .clear) ∨
            WritesFrame s.cfg x ∨ x = .reset)) := by
  rcases performed_validity_cases h with ⟨i, u, hx, he, ht⟩ | ⟨hx, hr, -⟩ | ⟨hx, hw, hn, hr, -⟩
  · rw [ht, exec_rxv he]
    simp only [isCommand_encodeCmd_iff hx, isCommand_not_frame_or_reset hx]
    cases i <;> simp
  · have hc (w : Word) : ¬IsCommand s.cfg x w := fun hi => isCommand_not_frame_or_reset hi hx
    simp [hr, hc, hx]
  · simp [hr, hx, hw, hn]

/-- R19, of one performed input. -/
theorem performed_txv {s t : State} {x : HostInput} (h : Performed s x t) :
    t.block.txv = true ↔
      IsCommand s.cfg x (encodeCmd .encode) ∨ IsCommand s.cfg x (encodeCmd .encodeFc) ∨
        (s.block.txv = true ∧
          ¬(IsCommand s.cfg x (encodeCmd .decode) ∨ IsCommand s.cfg x (encodeCmd .clear) ∨
            WritesFrame s.cfg x ∨ x = .reset)) := by
  rcases performed_validity_cases h with ⟨i, u, hx, he, ht⟩ | ⟨hx, -, hr⟩ | ⟨hx, hw, hn, -, hr⟩
  · rw [ht, exec_txv he]
    simp only [isCommand_encodeCmd_iff hx, isCommand_not_frame_or_reset hx]
    cases i <;> simp
  · have hc (w : Word) : ¬IsCommand s.cfg x w := fun hi => isCommand_not_frame_or_reset hi hx
    simp [hr, hc, hx]
  · simp [hr, hx, hw, hn]

/-- Settles O46: the step performs its first input, and each way of performing one treats RXV as R18 says. -/
theorem rxvSetOnlyByDecode : Obligations.RxvSetOnlyByDecode := by
  intro s t x rest hx hstep
  have hp := performed_rxv (performed_of_step hx hstep)
  exact hp

/-- Settles O47: the step performs its first input, and each way of performing one treats TXV as R19 says. -/
theorem txvSetOnlyByEncode : Obligations.TxvSetOnlyByEncode := by
  intro s t x rest hx hstep
  have hp := performed_txv (performed_of_step hx hstep)
  exact hp

end Sys2Proof.Machine
end

section
/-! SUPPORT. The CFG word (10_state.md R21): its fields side by side, and the statement. -/

namespace Sys2Proof.Machine

/-- The upper half of the CFG word, from bit 31 down: the revision, three 0 bits, the byte order and HDR_SIZE. -/
def cfgHigh (e : Endian) : BitVec 16 := 0x1#4 ++ 0#3 ++ BitVec.ofBool (bigEndian e) ++ 0x10#8

theorem cfgHigh_fields (e : Endian) :
    (cfgHigh e).extractLsb' 0 8 = 0x10#8 ∧ (cfgHigh e).extractLsb' 9 3 = 0#3 ∧
      (cfgHigh e).extractLsb' 12 4 = 0x1#4 ∧ ((cfgHigh e).getLsbD 8 = true ↔ e = .big) := by
  cases e <;> decide

/-- R21's two halves side by side: the fixed fields and the byte order over MAX_PAYLOAD. -/
theorem cfgWord_eq_append (c : Config) : cfgWord c = cfgHigh c.endian ++ BitVec.ofNat 16 c.maxPayload := by
  have hlow (m : BitVec 16) : m.setWidth 32 = 0#16 ++ m := BitVec.setWidth_eq_append (by decide)
  have hhigh (e : Endian) :
      BitVec.ofNat 32 hdrSize <<< 16 ||| (flagAt 24 (bigEndian e) ||| 1#32 <<< 28) = cfgHigh e ++ 0#16 := by
    cases e <;> decide
  rw [cfgWord, hlow, BitVec.or_assoc, BitVec.or_assoc, hhigh, BitVec.or_append, BitVec.zero_or, BitVec.or_zero]

/-- A field above bit 15 of the CFG word is a field of its upper half. -/
theorem cfgWord_extract_high (c : Config) {start : Nat} (len : Nat) (h : 16 ≤ start) :
    (cfgWord c).extractLsb' start len = (cfgHigh c.endian).extractLsb' (start - 16) len := by
  rw [cfgWord_eq_append, BitVec.extractLsb'_append_eq_of_le h]

/-- R21's MAX_PAYLOAD field holds every legal capacity whole. -/
theorem cfgWord_extract_low {c : Config} (hc : c.wf = true) : ((cfgWord c).extractLsb' 0 16).toNat = c.maxPayload := by
  rw [cfgWord_eq_append, BitVec.extractLsb'_append_eq_right, BitVec.toNat_ofNat]
  simp only [Config.wf, Config.capacityOk, Bool.and_eq_true, decide_eq_true_eq] at hc
  omega

/-- R21's fields, with legal parameters. -/
theorem cfgWord_fields {c : Config} (hc : c.wf = true) :
    ((cfgWord c).extractLsb' 0 16).toNat = c.maxPayload ∧ (cfgWord c).extractLsb' 16 8 = 0x10#8 ∧
      ((cfgWord c).getLsbD 24 = true ↔ c.endian = .big) ∧ (cfgWord c).extractLsb' 25 3 = 0#3 ∧
        (cfgWord c).extractLsb' 28 4 = 0x1#4 := by
  obtain ⟨hsize, hzero, hrev, horder⟩ := cfgHigh_fields c.endian
  refine ⟨cfgWord_extract_low hc, ?_, ?_, ?_, ?_⟩
  · rwa [cfgWord_extract_high c 8 (by decide)]
  · rwa [cfgWord_eq_append, BitVec.getLsbD_append, if_neg (by decide)]
  · rwa [cfgWord_extract_high c 3 (by decide)]
  · rwa [cfgWord_extract_high c 4 (by decide)]

/-- Settles O36: a CFG read answers the CFG word, whose fields are R21's, and a CFG write is answered alone. -/
theorem configWordHoldsTheParameters : Obligations.ConfigWordHoldsTheParameters := by
  have hread (s : State) : memRead .w32 0x024 s = .next (s.answer (.word (cfgWord s.cfg))) :=
    memRead_register (r := .cfg) (by decide) s
  refine ⟨fun s hs => ⟨cfgWord s.cfg, hread s, cfgWord_fields hs⟩, ?_, fun s v => ?_⟩
  · have hword : cfgWord State.reset.cfg = 0x11100400#32 := by decide
    rw [hread, hword]
    rfl
  · exact memWrite_register (r := .cfg) (by decide) v s

end Sys2Proof.Machine
end

section
/-! SUPPORT. The window map by region (20_memory.md R26 to R31): what a read and a write at an offset of each region end
in, for every configuration. -/

namespace Sys2Proof.Machine

/-! ## The register window -/

/-- R27, R30: no register is named at or above 0x028. -/
theorem regAt_reserved {off : Nat} (h : 0x028 ≤ off) : regAt off = .reserved := by
  rcases regAt_cases off with ⟨r, hr, rfl, -⟩ | hreg
  · cases r <;> simp [Reg.offset] at h hr
  · exact hreg

theorem target_register {c : Config} {off : Nat} (hlt : off < 0x400) (hal : off % 4 = 0) :
    target c .w32 off = .reg (regAt off) := by
  rcases target_cases c .w32 off with ⟨-, -, -, h⟩ | ⟨-, hw, -⟩ | ⟨-, hw, -⟩ | ⟨⟨-, hna⟩ | ⟨hge, -⟩, -⟩
  · exact h
  · cases hw
  · cases hw
  · exact absurd ⟨rfl, hal⟩ hna
  · omega

/-- An aligned word read below 0x400 answers its register's value and is nothing else. -/
theorem memRead_aligned {off : Nat} (hlt : off < 0x400) (hal : off % 4 = 0) (s : State) :
    memRead .w32 off s = .next (s.answer (.word (readReg (regAt off) s))) := by
  rw [memRead, access_read_offset _ _ (by omega), target_register hlt hal, readTarget]

/-- An aligned word write below 0x400 is its register's write, answered. -/
theorem memWrite_aligned {off : Nat} (hlt : off < 0x400) (hal : off % 4 = 0) (v : Word) (s : State) :
    memWrite .w32 off v s = answerDone (writeReg (regAt off) v s) := by
  rw [memWrite, access_write_offset _ _ _ (by omega), target_register hlt hal, writeTarget]

/-- What a register reads as does not look at the answers so far. -/
@[simp] theorem readReg_answer (r : Reg) (a : Answer) (s : State) : readReg r (s.answer a) = readReg r s := by
  cases r <;> rfl

/-! ## The buffer window -/

/-- R39: a byte read at 0x400 + i is a read of FBUF[i]. -/
theorem memRead_frameByte {s : State} {i : Nat} (hi : i < s.cfg.bufSize) (hw : 0x400 + i < 0x1000) :
    memRead .w8 (0x400 + i) s = readTarget (.frameByte i) s := by
  rw [memRead, access_read_offset _ _ hw, target_frameByte hi]

/-- R39: a byte write at 0x400 + i stores the low byte to FBUF[i], answered. -/
theorem memWrite_frameByte {s : State} {i : Nat} (hi : i < s.cfg.bufSize) (hw : 0x400 + i < 0x1000) (v : Word) :
    memWrite .w8 (0x400 + i) v s =
      .next (State.answer .done { s with block := s.block.writeFrameByte i (v.setWidth 8) }) := by
  rw [memWrite, access_write_offset _ _ _ hw, target_frameByte hi, writeTarget]

theorem target_tail {c : Config} {i : Nat} (hi : c.bufSize ≤ i) : target c .w8 (0x400 + i) = .tail := by
  rcases target_cases c .w8 (0x400 + i) with ⟨h, -⟩ | ⟨-, -, h, -⟩ | ⟨-, -, -, h⟩ | ⟨⟨h, -⟩ | ⟨-, h⟩, -⟩
  · omega
  · omega
  · exact h
  · omega
  · exact absurd rfl h

/-- R31: a byte read past FBUF answers 0. -/
theorem memRead_tail {s : State} {i : Nat} (hi : s.cfg.bufSize ≤ i) (hw : 0x400 + i < 0x1000) :
    memRead .w8 (0x400 + i) s = .next (s.answer (.byte 0x00#8)) := by
  rw [memRead, access_read_offset _ _ hw, target_tail hi, readTarget]

/-- R31: a byte write past FBUF is answered and is nothing else. -/
theorem memWrite_tail {s : State} {i : Nat} (hi : s.cfg.bufSize ≤ i) (hw : 0x400 + i < 0x1000) (v : Word) :
    memWrite .w8 (0x400 + i) v s = .next (s.answer .done) := by
  rw [memWrite, access_write_offset _ _ _ hw, target_tail hi, writeTarget]

/-! ## What the map does not admit -/

section
variable {w : Width} {off : Nat} (hb : (off < 0x400 ∧ ¬(w = .w32 ∧ off % 4 = 0)) ∨ (0x400 ≤ off ∧ w ≠ .w8))
include hb

/-- R28, R29: a width or an alignment that an offset's region does not take reaches nothing. -/
theorem target_busError (c : Config) : target c w off = .busError := by
  rcases target_cases c w off with ⟨hlt, hw, hal, -⟩ | ⟨hge, hw, -⟩ | ⟨hge, hw, -⟩ | ⟨-, h⟩
  · rcases hb with ⟨-, hna⟩ | ⟨hge, -⟩
    · exact absurd ⟨hw, hal⟩ hna
    · omega
  · exact hb.elim (fun h => by omega) fun h => absurd hw h.2
  · exact hb.elim (fun h => by omega) fun h => absurd hw h.2
  · exact h

theorem memRead_busError (hw : off < 0x1000) (s : State) : memRead w off s = .next s.busError := by
  rw [memRead, access_read_offset _ _ hw, target_busError hb, readTarget]

theorem memWrite_busError (hw : off < 0x1000) (v : Word) (s : State) : memWrite w off v s = .next s.busError := by
  rw [memWrite, access_write_offset _ _ _ hw, target_busError hb, writeTarget]
end

end Sys2Proof.Machine
end

section
/-! SUPPORT. The laws of a register's write (20_memory.md R33 to R37) and of a field's bytes shifted into place (R41). -/

namespace Sys2Proof.Machine

/-! ## CMD -/

/-- R33: the word of a command starts that command. -/
theorem startCommand_encodeCmd (i : Instr) (s : State) : startCommand (encodeCmd i) s = exec i s := by
  rw [startCommand, decodeCmd_encodeCmd]

/-- R49: every command's word is one of the five. -/
theorem legalWord_encodeCmd (i : Instr) : LegalWord (encodeCmd i) := by
  unfold LegalWord
  cases i <;> decide

/-- R33, R50: a word that is none of the five raises E_ILL. -/
theorem startCommand_of_not_legalWord {w : Word} (hw : ¬LegalWord w) (s : State) :
    startCommand w s = .next (s.raise .ill) := by
  unfold startCommand
  cases hd : decodeCmd w with
  | ok i => exact absurd (decodeCmd_eq_ok_iff.1 hd ▸ legalWord_encodeCmd i) hw
  | error r => rfl

/-! ## STATUS and FLEN -/

/-- R34: the sticky bits cleared, each by its own position of the value. -/
theorem clearErrors_eq (v : Word) (b : Block) :
    b.clearErrors v = { b with
      eMalf := if v.getLsbD 8 = true then false else b.eMalf
      eIll := if v.getLsbD 9 = true then false else b.eIll
      eOvr := if v.getLsbD 10 = true then false else b.eOvr } := by
  have hbit (x y : Bool) : (x && !y) = if y = true then false else x := by cases y <;> simp
  simp only [Block.clearErrors, hbit]

theorem writeFlen_above {s : State} {v : Word} (h : s.cfg.bufSize < v.toNat) :
    s.writeFlen v =
      State.raise .ovr { s with block := { s.block.invalidate with flen := BitVec.ofNat 32 s.cfg.bufSize } } := by
  rw [State.writeFlen, if_pos h]

theorem writeFlen_within {s : State} {v : Word} (h : v.toNat ≤ s.cfg.bufSize) :
    s.writeFlen v = { s with block := { s.block.invalidate with flen := v } } := by
  rw [State.writeFlen, if_neg (Nat.not_lt.2 h)]

/-! ## Bytes shifted into place -/

/-- Two bit vectors side by side, widened: the upper one shifted past the lower. -/
theorem setWidth_append_eq_shift_or {m n k : Nat} (x : BitVec m) (y : BitVec n) :
    (x ++ y).setWidth k = x.setWidth k <<< n ||| y.setWidth k := by
  ext i hi
  simp only [BitVec.getElem_setWidth, BitVec.getLsbD_append, BitVec.getElem_or, BitVec.getElem_shiftLeft]
  by_cases hn : i < n
  · simp [hn]
  · simp [hn, BitVec.getLsbD_of_ge y i (by omega)]

theorem append_bytes16 (b1 b0 : Byte) : (b1 ++ b0 : Half) = b1.setWidth 16 <<< 8 ||| b0.setWidth 16 := by
  rw [← setWidth_append_eq_shift_or, BitVec.setWidth_eq]

theorem append_bytes32 (b3 b2 b1 b0 : Byte) :
    (b3 ++ b2 ++ b1 ++ b0 : Word) =
      b3.setWidth 32 <<< 24 ||| b2.setWidth 32 <<< 16 ||| b1.setWidth 32 <<< 8 ||| b0.setWidth 32 := by
  rw [← BitVec.setWidth_eq (b3 ++ b2 ++ b1 ++ b0)]
  simp only [setWidth_append_eq_shift_or, BitVec.shiftLeft_or_distrib, ← BitVec.shiftLeft_add]

/-- R41: the value of a 32-bit field of valued bytes, in both orders. -/
theorem get32_of_bytes {m : Memory} {i : Nat} {b0 b1 b2 b3 : Byte} (h0 : m.read i = some b0)
    (h1 : m.read (i + 1) = some b1) (h2 : m.read (i + 2) = some b2) (h3 : m.read (i + 3) = some b3) :
    get32 .big i m = some (b0 ++ b1 ++ b2 ++ b3) ∧ get32 .little i m = some (b3 ++ b2 ++ b1 ++ b0) := by
  simp [get32, h0, h1, h2, h3]

/-- R41: the value of a 16-bit field of valued bytes, in both orders. -/
theorem get16_of_bytes {m : Memory} {i : Nat} {b0 b1 : Byte} (h0 : m.read i = some b0)
    (h1 : m.read (i + 1) = some b1) :
    get16 .big i m = some (b0 ++ b1) ∧ get16 .little i m = some (b1 ++ b0) := by
  simp [get16, h0, h1]

/-- R41: a 32-bit field read gives back the field just written there. -/
@[simp] theorem get32_put32 (e : Endian) (i : Nat) (v : Word) (m : Memory) : get32 e i (put32 e i v m) = some v := by
  refine get32_eq_some.2 fun k hk => ?_
  rw [read_put32, if_pos (by omega), Nat.add_sub_cancel_left]

/-- R41: a 16-bit field read gives back the field just written there. -/
@[simp] theorem get16_put16 (e : Endian) (i : Nat) (v : Half) (m : Memory) : get16 e i (put16 e i v m) = some v := by
  refine get16_eq_some.2 fun k hk => ?_
  rw [read_put16, if_pos (by omega), Nat.add_sub_cancel_left]

end Sys2Proof.Machine
end

section
/-! SUPPORT. The statements on the host's accesses (20_memory.md sections 2 to 4). -/

namespace Sys2Proof.Machine

/-- Settles O20: a read of a named register answers its value, and what an aligned read answers is no part of what the
next one looks at. -/
theorem registerReadsAnswerTheirValues : Obligations.RegisterReadsAnswerTheirValues := by
  refine ⟨fun s => ?_, fun s off hlt hal => ⟨readReg (regAt off) s, memRead_aligned hlt hal s, ?_⟩⟩
  · have hread {r : Reg} (hr : r ≠ .reserved) := memRead_register hr s
    exact ⟨hread (r := .cmd) (by decide), hread (r := .status) (by decide), hread (r := .seq) (by decide),
      hread (r := .ack) (by decide), hread (r := .fin) (by decide), hread (r := .cor) (by decide),
      hread (r := .len) (by decide), hread (r := .flen) (by decide), hread (r := .pavail) (by decide),
      hread (r := .cfg) (by decide)⟩
  · have hagain := memRead_aligned hlt hal (s.answer (.word (readReg (regAt off) s)))
    rwa [readReg_answer] at hagain

/-- Settles O26: R37's compare decides between the clamp with its raise and the value as it is. BUF_SIZE fits the register
where a 32-bit value lies above it, whatever the parameters. -/
theorem flenWriteClampsToTheBuffer : Obligations.FlenWriteClampsToTheBuffer := by
  intro s v
  have hwrite : memWrite .w32 0x01C v s = .next ((s.writeFlen v).answer .done) :=
    memWrite_register (r := .flen) (by decide) v s
  refine ⟨fun habove => ⟨BitVec.ofNat 32 s.cfg.bufSize, ?_, ?_⟩, fun hwithin => ?_⟩
  · exact Nat.mod_eq_of_lt (habove.trans v.isLt)
  · rw [hwrite, writeFlen_above habove]
    rfl
  · rw [hwrite, writeFlen_within hwithin]
    rfl

/-- Settles O28: the access reaches FBUF[i], and a byte write there is the buffer's own byte write. -/
theorem frameByteAccess : Obligations.FrameByteAccess := by
  intro s i hc hi
  have hwin := frameByte_in_window hc hi
  refine ⟨fun v => ⟨_, memWrite_frameByte hi hwin v, ?_, ?_, rfl⟩, fun b hb => ?_, fun hnone => ?_⟩
  · rw [← BitVec.setWidth_eq_extractLsb' (by decide)]
    exact read_write_same ..
  · exact fun a ha => read_write_of_ne _ _ ha
  · simp only [memRead_frameByte hi hwin, readTarget, hb, State.answer]
  · simp only [memRead_frameByte hi hwin, readTarget, hnone]

/-- Settles O29: the aligned offsets from 0x028 on are the reserved register, which reads 0 and ignores writes. -/
theorem reservedRegistersReadZero : Obligations.ReservedRegistersReadZero := by
  intro s off hlo hhi hal
  have hlt : off < 0x400 := by omega
  refine ⟨?_, fun v => ?_⟩
  · rw [memRead_aligned hlt hal, regAt_reserved hlo]
    rfl
  · rw [memWrite_aligned hlt hal, regAt_reserved hlo]
    rfl

/-- Settles O31: such an access reaches nothing. -/
theorem registerWindowTakesAlignedWordsOnly : Obligations.RegisterWindowTakesAlignedWordsOnly := by
  intro s w off hlt hna
  have hwin : off < 0x1000 := by omega
  exact ⟨memRead_busError (.inl ⟨hlt, hna⟩) hwin s, fun v => memWrite_busError (.inl ⟨hlt, hna⟩) hwin v s⟩

/-- Settles O32: a wide access reaches nothing; a byte access reaches a frame byte or the tail, and is admitted at both. -/
theorem bufferWindowTakesBytesOnly : Obligations.BufferWindowTakesBytesOnly := by
  intro s w off hge hle
  obtain ⟨i, rfl⟩ := Nat.exists_eq_add_of_le hge
  have hwin : 0x400 + i < 0x1000 := by omega
  refine ⟨fun hw => ?_, ?_⟩
  · exact ⟨memRead_busError (.inr ⟨hge, hw⟩) hwin s, fun v => memWrite_busError (.inr ⟨hge, hw⟩) hwin v s⟩
  · rcases Nat.lt_or_ge i s.cfg.bufSize with hi | hi
    · refine ⟨?_, fun v => ⟨_, memWrite_frameByte hi hwin v, rfl, rfl⟩⟩
      rw [memRead_frameByte hi hwin]
      cases hb : s.block.fbuf.read i with
      | some b => exact .inl ⟨b, by simp only [readTarget, hb, State.answer]⟩
      | none => exact .inr (by simp only [readTarget, hb])
    · exact ⟨.inl ⟨_, memRead_tail hi hwin⟩, fun v => ⟨_, memWrite_tail hi hwin v, rfl, rfl⟩⟩

/-- Settles O34: valued bytes side by side are the bytes shifted into place, and a field write leaves exactly the bytes its
read looks for. -/
theorem fieldReadUndoesFieldWrite : Obligations.FieldReadUndoesFieldWrite := by
  refine fun i m => ⟨fun b0 b1 b2 b3 h0 h1 h2 h3 => ?_, fun b0 b1 h0 h1 => ?_, fun e => ?_⟩
  · simpa only [append_bytes32] using get32_of_bytes h0 h1 h2 h3
  · simpa only [append_bytes16] using get16_of_bytes h0 h1
  · exact ⟨get32_eq_none, get16_eq_none, fun v => get32_put32 e i v m, fun v => get16_put16 e i v m⟩

/-- Settles O22: each of the five words is its command's, and a write to CMD starts what the word encodes. -/
theorem commandPortRunsTheCommand : Obligations.CommandPortRunsTheCommand := by
  intro s
  have hwrite (w : Word) : memWrite .w32 0x000 w s = answerDone (startCommand w s) :=
    memWrite_register (r := .cmd) (by decide) w s
  have hrun {w : Word} {i : Instr} (hw : w = encodeCmd i) : memWrite .w32 0x000 w s = answerDone (exec i s) := by
    rw [hwrite, hw, startCommand_encodeCmd]
  refine ⟨hrun (by decide), hrun (by decide), hrun (by decide), hrun (by decide), hrun (by decide), fun w hw => ?_⟩
  rw [hwrite, startCommand_of_not_legalWord hw]

/-- Settles O23: a write to STATUS is the shared clearing of the sticky bits, answered. -/
theorem statusWriteClearsStickyBits : Obligations.StatusWriteClearsStickyBits := by
  intro s v
  rw [← clearErrors_eq]
  exact memWrite_register (r := .status) (by decide) v s

/-- Settles O24: each is its register's write, which clears both validity bits. -/
theorem wordRegisterWritesKeepAllBits : Obligations.WordRegisterWritesKeepAllBits := fun s v =>
  ⟨memWrite_register (r := .seq) (by decide) v s, memWrite_register (r := .ack) (by decide) v s,
    memWrite_register (r := .len) (by decide) v s⟩

/-- Settles O25: each is its register's write, which keeps the value's low half. -/
theorem flagRegisterWritesKeepLowHalf : Obligations.FlagRegisterWritesKeepLowHalf := by
  intro s v
  rw [← BitVec.setWidth_eq_extractLsb' (by decide)]
  exact ⟨memWrite_register (r := .fin) (by decide) v s, memWrite_register (r := .cor) (by decide) v s⟩

/-- Settles O27: the write of a read-only register leaves the state, and is answered. -/
theorem readOnlyRegistersIgnoreWrites : Obligations.ReadOnlyRegistersIgnoreWrites := fun s v =>
  ⟨memWrite_register (r := .pavail) (by decide) v s, memWrite_register (r := .cfg) (by decide) v s⟩

/-- Settles O30: such an access reaches the tail, which reads 0 and ignores writes. -/
theorem bufferTailReadsZero : Obligations.BufferTailReadsZero := by
  intro s i hi hle
  have hwin : 0x400 + i < 0x1000 := by omega
  exact ⟨memRead_tail hi hwin, memWrite_tail hi hwin⟩

end Sys2Proof.Machine
end

section
/-! SUPPORT. The command word by its fields (30_encoding.md R48), and the transactions of WRBUF and RDBUF by index (R53). -/

namespace Sys2Proof.Machine

/-! ## The command word by its fields -/

/-- R49: the five legal words are the words of the five commands. -/
theorem legalWord_iff_exists_encodeCmd {w : Word} : LegalWord w ↔ ∃ i, w = encodeCmd i := by
  refine ⟨?_, fun ⟨i, hi⟩ => hi ▸ legalWord_encodeCmd i⟩
  rintro (h | h | h | h | h)
  · exact ⟨.nop, h.trans (by decide)⟩
  · exact ⟨.encode, h.trans (by decide)⟩
  · exact ⟨.encodeFc, h.trans (by decide)⟩
  · exact ⟨.decode, h.trans (by decide)⟩
  · exact ⟨.clear, h.trans (by decide)⟩

/-- R48: RSV, FC and OP are all of a command word. -/
theorem append_cmd_fields (w : Word) : (cmdRsv w ++ BitVec.ofBool (cmdFc w)) ++ cmdOp w = w := by
  ext k hk
  simp only [cmdRsv, cmdFc, cmdOp, BitVec.getElem_append, BitVec.getElem_extractLsb', BitVec.getElem_ofBool]
  split
  · simp [BitVec.getLsbD_eq_getElem hk]
  · split
    · obtain rfl : k = 4 := by omega
      rfl
    · simp [show 5 + (k - 4 - 1) = k by omega, BitVec.getLsbD_eq_getElem hk]

/-- R48: a word is a command's when its three fields are that command's. -/
theorem eq_encodeCmd_iff_fields {w : Word} {i : Instr} :
    w = encodeCmd i ↔ cmdRsv w = 0 ∧ cmdFc w = fcOf i ∧ cmdOp w = opOf i := by
  constructor
  · rintro rfl
    cases i <;> decide
  · rintro ⟨hrsv, hfc, hop⟩
    rw [← append_cmd_fields w, hrsv, hfc, hop]
    rfl

/-- R48, R49: the pairs of FC and OP that some command has. -/
theorem exists_command_iff {fc : Bool} {op : BitVec 4} :
    (∃ i, fc = fcOf i ∧ op = opOf i) ↔ op.toNat ≤ 3 ∧ (fc = true → op = 1) := by
  constructor
  · rintro ⟨i, rfl, rfl⟩
    cases i <;> decide
  · rintro ⟨hop, hfc⟩
    cases fc with
    | true => exact ⟨.encodeFc, rfl, hfc rfl⟩
    | false =>
      have hcases : op = 0 ∨ op = 1 ∨ op = 2 ∨ op = 3 := by bv_omega
      rcases hcases with rfl | rfl | rfl | rfl
      · exact ⟨.nop, rfl, rfl⟩
      · exact ⟨.encode, rfl, rfl⟩
      · exact ⟨.decode, rfl, rfl⟩
      · exact ⟨.clear, rfl, rfl⟩

/-- R50: the legal words by their fields. -/
theorem legalWord_iff_fields {w : Word} :
    LegalWord w ↔ cmdRsv w = 0 ∧ (cmdOp w).toNat ≤ 3 ∧ (cmdFc w = true → cmdOp w = 1) := by
  simp only [legalWord_iff_exists_encodeCmd, eq_encodeCmd_iff_fields, exists_and_left, exists_command_iff]

/-! ## The transactions of WRBUF and RDBUF -/

/-- R53: the k-th write of WRBUF stores the k-th byte. -/
theorem writeBytes_eq_map_range (i : Nat) (bs : List Byte) :
    writeBytes i bs =
      (List.range bs.length).map fun k => .wr8 (bufferWindow + (i + k)) ((bs.getD k 0).setWidth 32) := by
  induction bs generalizing i with
  | nil => rfl
  | cons b bs ih =>
    have hstep (k : Nat) : i + 1 + k = i + (k + 1) := by omega
    simp [writeBytes, ih, hstep, List.range_succ_eq_map, Function.comp_def]

/-- R53: the k-th read of RDBUF is of the k-th byte on from its first. -/
theorem readBytes_eq_map_range (i n : Nat) :
    readBytes i n = (List.range n).map fun k => .rd8 (bufferWindow + (i + k)) := by
  simp only [readBytes, Nat.add_assoc]

end Sys2Proof.Machine
end

section
/-! SUPPORT. The statements on encodings and expansions (30_encoding.md). -/

namespace Sys2Proof.Machine

/-- Settles O4: R50's three causes are the negation of legality by fields, and a write to CMD of an illegal word
is the command port's rule (O22). -/
theorem illegalWordOnlyRaisesEIll : Obligations.IllegalWordOnlyRaisesEIll := by
  refine ⟨fun w => ?_, fun s w hw => ?_⟩
  · rw [legalWord_iff_fields, not_and_or, not_and_or, Nat.not_le, Classical.not_imp]
    exact or_rotate.symm
  · obtain ⟨-, -, -, -, -, hill⟩ := commandPortRunsTheCommand s
    exact hill w hw

/-- Settles O1: a word decodes to a command exactly when it is that command's word, and the five are those listed. -/
theorem commandWordsDecodeByEquality : Obligations.CommandWordsDecodeByEquality := by
  intro w
  refine ⟨decodeCmd_eq_ok_iff, decodeCmd_eq_ok_iff, decodeCmd_eq_ok_iff, decodeCmd_eq_ok_iff, decodeCmd_eq_ok_iff, ?_⟩
  simp only [decodeCmd_eq_ok_iff, legalWord_iff_exists_encodeCmd]

/-- Settles O58: an expansion is its list of transactions, each mapped to its access; WRBUF's recursion is its bytes in
order. -/
theorem pseudoInstructionsExpandAsListed : Obligations.PseudoInstructionsExpandAsListed := by
  refine ⟨fun _ _ _ _ _ _ => rfl, fun s i bs => ?_, fun s i n => ?_, fun s n bs => ⟨?_, ?_⟩, fun _ => rfl, fun _ => rfl⟩
  · rw [Pseudo.inputs, Pseudo.transactions, Pseudo.expand, writeBytes_eq_map_range, List.map_map]
    rfl
  · rw [Pseudo.inputs, Pseudo.transactions, Pseudo.expand, readBytes_eq_map_range, List.map_map]
    rfl
  · exact List.map_append
  · exact beq_iff_eq

end Sys2Proof.Machine
end

section
/-! SUPPORT. The laws of the serializer (40_serializer.md R54 to R57): the bytes it leaves, the counts it sets, what it
keeps, and what a second ENCODE and a DECODE find. -/

namespace Sys2Proof.Machine

/-! ## A header put where it already stands -/

/-- R40: a 32-bit field is put byte by byte, upwards. -/
theorem put32_eq_writes (e : Endian) (i : Nat) (v : Word) (m : Memory) :
    put32 e i v m =
      (((m.write (i + 0) (fieldByte32 e v 0)).write (i + 1) (fieldByte32 e v 1)).write (i + 2)
        (fieldByte32 e v 2)).write (i + 3) (fieldByte32 e v 3) := by
  cases e <;> rfl

/-- R40: a 16-bit field is put byte by byte, upwards. -/
theorem put16_eq_writes (e : Endian) (i : Nat) (v : Half) (m : Memory) :
    put16 e i v m = (m.write (i + 0) (fieldByte16 e v 0)).write (i + 1) (fieldByte16 e v 1) := by
  cases e <;> rfl

theorem put32_get32_self {e : Endian} {i : Nat} {v : Word} {m : Memory} (hm : m.wf) (h : get32 e i m = some v) :
    put32 e i v m = m := by
  have hself {k : Nat} (hk : k < 4) := write_read_self hm (get32_eq_some.1 h k hk)
  rw [put32_eq_writes, hself (by decide), hself (by decide), hself (by decide), hself (by decide)]

theorem put16_get16_self {e : Endian} {i : Nat} {v : Half} {m : Memory} (hm : m.wf) (h : get16 e i m = some v) :
    put16 e i v m = m := by
  have hself {k : Nat} (hk : k < 2) := write_read_self hm (get16_eq_some.1 h k hk)
  rw [put16_eq_writes, hself (by decide), hself (by decide)]

/-- In canonical form, putting the header that FBUF[0..15] already hold changes nothing. -/
theorem putHeader_getHeader_self {e : Endian} {h : Header} {m : Memory} (hm : m.wf) (hg : getHeader e m = some h) :
    putHeader e h m = m := by
  obtain ⟨hseq, hack, hfin, hcor, hlen⟩ := getHeader_eq_some.1 hg
  rw [putHeader, put32_get32_self hm hseq, put32_get32_self hm hack, put16_get16_self hm hfin, put16_get16_self hm hcor,
    put32_get32_self hm hlen]

/-! ## The payload extent (R55) -/

theorem maxPayload_le_of_wf {c : Config} (hc : c.wf = true) : c.maxPayload ≤ 3056 := by
  simp only [Config.wf, Config.capacityOk, Bool.and_eq_true, decide_eq_true_eq] at hc
  obtain ⟨⟨-, hmax⟩, -⟩ := hc
  exact hmax

theorem extent_toNat {c : Config} (hc : c.wf = true) (len : Word) :
    (extent c len).toNat = min len.toNat c.maxPayload := by
  have hmax := maxPayload_le_of_wf hc
  rw [extent, BitVec.toNat_ofNat, Nat.mod_eq_of_lt (by omega)]

/-! ## ENCODE and ENCODE.FC -/

/-- The header ENCODE puts on the wire: the field registers, their corrupted field forced to 1 with FC (R56). -/
def outgoingHeader (fc : Bool) (b : Block) : Header := { b.header with cor := corOut fc b.cor }

theorem exec_of_encode_or_encodeFc {i : Instr} (hi : i = .encode ∨ i = .encodeFc) (s : State) :
    exec i s = .next (serialize (fcOf i) s) := by
  rcases hi with rfl | rfl
  · exact exec_encode s
  · exact exec_encodeFc s

/-- R56: among the commands FC is ENCODE.FC's alone. -/
theorem corOut_fcOf (i : Instr) (cor : Half) : corOut (fcOf i) cor = if i = .encodeFc then 0x0001#16 else cor := by
  cases i <;> rfl

/-- R56: forcing the corrupted field to 1 is idle where COR is 1. -/
theorem corOut_one (fc : Bool) : corOut fc 0x0001#16 = 0x0001#16 := by cases fc <;> rfl

section
variable (fc : Bool) (s : State)
@[simp] theorem serialize_cfg : (serialize fc s).cfg = s.cfg := rfl
@[simp] theorem serialize_inputs : (serialize fc s).inputs = s.inputs := rfl
@[simp] theorem serialize_answers : (serialize fc s).answers = s.answers := rfl
@[simp] theorem serialize_raised : (serialize fc s).raised = s.raised := rfl
@[simp] theorem serialize_header : (serialize fc s).block.header = s.block.header := rfl
@[simp] theorem serialize_eMalf : (serialize fc s).block.eMalf = s.block.eMalf := rfl
@[simp] theorem serialize_eIll : (serialize fc s).block.eIll = s.block.eIll := rfl
@[simp] theorem serialize_eOvr : (serialize fc s).block.eOvr = s.block.eOvr := rfl
@[simp] theorem serialize_fbuf :
    (serialize fc s).block.fbuf = putHeader s.cfg.endian (outgoingHeader fc s.block) s.block.fbuf := rfl

/-- R54's frame: the buffer aside, what changes is FLEN, PAVAIL and the two validity bits. -/
theorem serialize_eq :
    serialize fc s = { s with
      block :=
        { s.block with
          fbuf := (serialize fc s).block.fbuf
          flen := 16#32 + BitVec.ofNat 32 (min s.block.len.toNat s.cfg.maxPayload)
          pavail := BitVec.ofNat 32 (min s.block.len.toNat s.cfg.maxPayload)
          txv := true
          rxv := false } } := rfl

/-- R54's bytes: FBUF[0..15] are the outgoing header's wire form. -/
theorem serialize_headerBytes :
    HeaderBytes (serialize fc s).block.fbuf (wireHeader s.cfg.endian (outgoingHeader fc s.block)) :=
  putHeader_bytes s.cfg.endian (outgoingHeader fc s.block) s.block.fbuf

theorem getHeader_serialize :
    getHeader s.cfg.endian (serialize fc s).block.fbuf = some (outgoingHeader fc s.block) :=
  getHeader_iff_bytes.2 (serialize_headerBytes fc s)

/-- R57: every byte past the header stays. -/
theorem serialize_payload {a : Nat} (ha : 16 ≤ a) : (serialize fc s).block.fbuf.read a = s.block.fbuf.read a :=
  read_putHeader_payload _ _ _ ha

/-- R56: with FC the frame is the same for every COR, which is carried along. -/
theorem serialize_true_setCor (c : Half) :
    serialize true { s with block := { s.block with cor := c } } =
      { serialize true s with block := { (serialize true s).block with cor := c } } := rfl

/-- R56: with COR = 1 the modifier changes nothing. -/
theorem serialize_false_of_cor_one (hcor : s.block.cor = 0x0001#16) : serialize false s = serialize true s := by
  rw [serialize, serialize, hcor, corOut_one, corOut_one]

/-- In canonical form, a second ENCODE finds the frame as it would build it. -/
theorem serialize_serialize (hm : s.block.fbuf.wf) : serialize fc (serialize fc s) = serialize fc s := by
  have hput : putHeader s.cfg.endian (outgoingHeader fc s.block) (serialize fc s).block.fbuf =
      (serialize fc s).block.fbuf :=
    putHeader_getHeader_self (wf_putHeader _ _ hm) (getHeader_serialize fc s)
  rw [serialize_eq fc (serialize fc s), serialize_fbuf fc (serialize fc s)]
  exact congrArg (fun m => { serialize fc s with block := { (serialize fc s).block with fbuf := m } }) hput
end

section
variable {s : State} (hs : s.cfg.wf = true) (fc : Bool)
include hs

/-- R55: FLEN counts the header and the extent. -/
theorem serialize_flen_toNat : (serialize fc s).block.flen.toNat = 16 + min s.block.len.toNat s.cfg.maxPayload := by
  have hmax := maxPayload_le_of_wf hs
  rw [serialize_eq, BitVec.toNat_add, BitVec.toNat_ofNat, BitVec.toNat_ofNat]
  omega

theorem serialize_flen_le : (serialize fc s).block.flen.toNat ≤ s.cfg.bufSize := by
  rw [serialize_flen_toNat hs]
  exact Nat.add_le_add_left (Nat.min_le_right ..) 16

/-- A DECODE directly after an ENCODE loads the header that was put on the wire. -/
theorem exec_decode_serialize :
    exec .decode (serialize fc s) = .next (loadHeader (outgoingHeader fc s.block) (serialize fc s)) := by
  have hflen := serialize_flen_toNat hs fc
  have hget := getHeader_serialize fc s
  rcases execDecode_cases (serialize fc s) with ⟨hlt, -⟩ | ⟨-, h, hh, hd⟩ | ⟨-, hnone, -⟩
  · omega
  · cases hh.symm.trans hget
    exact hd
  · cases hnone.symm.trans hget
end

/-! ## STATUS.LENOVR (R65) -/

theorem getLsbD_flagAt (k : Nat) (x : Bool) {j : Nat} (hj : j < 32) :
    (flagAt k x).getLsbD j = (decide (j = k) && x) := by
  simp only [flagAt, BitVec.getLsbD_shiftLeft, BitVec.getLsbD_setWidth, BitVec.getLsbD_ofBool]
  rcases Nat.lt_trichotomy j k with h | rfl | h
  · simp [h, Nat.ne_of_lt h]
  · simp [hj]
  · simp [Nat.ne_of_gt h, Nat.sub_ne_zero_of_lt h]

theorem statusWord_lenovr (c : Config) (b : Block) : (statusWord c b).getLsbD 6 = b.lenovr c := by
  simp only [statusWord, BitVec.getLsbD_or, getLsbD_flagAt _ _ (show 6 < 32 by decide)]
  simp

end Sys2Proof.Machine
end

section
/-! SUPPORT. The statements on the serializer (40_serializer.md). -/

namespace Sys2Proof.Machine

/-- Settles O10: both forms are one serialization, which puts its header, sets its counts and finds its own frame when it is
done again. -/
theorem encodeBuildsTheFrame : Obligations.EncodeBuildsTheFrame := by
  intro s i hi
  have hbytes := serialize_headerBytes (fcOf i) s
  rw [outgoingHeader, corOut_fcOf] at hbytes
  refine ⟨serialize (fcOf i) s, exec_of_encode_or_encodeFc hi s, hbytes, fun a => serialize_payload (fcOf i) s,
    serialize_eq (fcOf i) s, fun hm => ?_⟩
  rw [exec_of_encode_or_encodeFc hi, serialize_serialize _ _ hm]

/-- Settles O11: with FC the corrupted field of the outgoing header is 1 whatever COR holds, and a DECODE loads that header;
FC goes with OP = 1 in every legal word. -/
theorem encodeFcForcesTheCorruptedField : Obligations.EncodeFcForcesTheCorruptedField := by
  refine ⟨fun s => ⟨serialize true s, exec_encodeFc s, serialize_headerBytes true s, fun a => serialize_payload true s,
    serialize_eq true s, fun c => ?_, fun hcor => ?_, fun hs => ⟨_, exec_decode_serialize hs true, rfl⟩⟩,
    fun w hfc hop hlegal => ?_⟩
  · rw [exec_encodeFc, serialize_true_setCor]
  · rw [exec_encode, serialize_false_of_cor_one s hcor]
  · obtain ⟨-, -, honly⟩ := legalWord_iff_fields.1 hlegal
    exact hop (honly hfc)

/-- Settles O12: legal parameters keep both counts from wrapping, so FLEN ends inside FBUF; the header carries LEN itself, and
an unvalued payload byte is still unvalued when the host reads it. -/
theorem payloadExtentBoundsTheFrame : Obligations.PayloadExtentBoundsTheFrame := by
  intro s i hi hs
  have hle := serialize_flen_le hs (fcOf i)
  obtain ⟨-, -, -, -, hlen⟩ := getHeader_eq_some.1 (getHeader_serialize (fcOf i) s)
  refine ⟨serialize (fcOf i) s, exec_of_encode_or_encodeFc hi s, extent_toNat hs _, serialize_flen_toNat hs _, hle, hlen,
    ?_, fun a ha => ⟨serialize_payload _ s ha, fun hin hnone => ?_⟩⟩
  · rw [statusWord_lenovr]
    exact decide_eq_true_iff
  · have hbuf : a < (serialize (fcOf i) s).cfg.bufSize := Nat.lt_of_lt_of_le hin hle
    have hread := (serialize_payload (fcOf i) s ha).trans hnone
    simp only [memRead_frameByte hbuf (frameByte_in_window hs hbuf), readTarget, hread]

/-- Settles O14: serialization has one outcome, which keeps all of these. -/
theorem encodeHasNoErrorPath : Obligations.EncodeHasNoErrorPath := by
  intro s i hi
  exact ⟨serialize (fcOf i) s, exec_of_encode_or_encodeFc hi s, serialize_header _ s, serialize_eMalf _ s,
    serialize_eIll _ s, serialize_eOvr _ s, serialize_raised _ s, serialize_cfg _ s, serialize_inputs _ s,
    serialize_answers _ s, fun a => serialize_payload _ s⟩

end Sys2Proof.Machine
end

section
/-! SUPPORT. The laws of the deserializer (41_deserializer.md R58 to R60): DECODE by what FLEN and FBUF[0..15] hold, and what
a parsed header leaves in the state. -/

namespace Sys2Proof.Machine

/-! ## The three ends of DECODE -/

/-- R59: a short frame fails before a byte is read. -/
theorem exec_decode_of_short {s : State} (hlen : s.block.flen.toNat < 16) : exec .decode s = .next (decodeFail s) := by
  rw [exec_decode, execDecode, hdrSize, if_pos hlen]

/-- R58: a valued header is loaded. -/
theorem exec_decode_of_header {s : State} {h : Header} (hlen : 16 ≤ s.block.flen.toNat)
    (hget : getHeader s.cfg.endian s.block.fbuf = some h) : exec .decode s = .next (loadHeader h s) := by
  rw [exec_decode, execDecode, hdrSize, if_neg (Nat.not_lt.2 hlen), hget]

/-- R58, R74: a header with an unvalued byte is the fault. -/
theorem exec_decode_of_unvalued {s : State} (hlen : 16 ≤ s.block.flen.toNat) (hval : ¬HeaderValued s.block.fbuf) :
    exec .decode s = .fault .undefinedByte := by
  rw [exec_decode, execDecode, hdrSize, if_neg (Nat.not_lt.2 hlen), getHeader_eq_none_iff.2 hval]

/-! ## The header that is read -/

theorem exists_getHeader_of_valued (e : Endian) {m : Memory} (hval : HeaderValued m) : ∃ h, getHeader e m = some h :=
  Option.ne_none_iff_exists'.1 fun hnone => getHeader_eq_none_iff.1 hnone hval

/-- Nothing past FBUF[15] takes part in the header. -/
theorem getHeader_congr (e : Endian) {m m' : Memory} (hread : ∀ k, k < 16 → m'.read k = m.read k) :
    getHeader e m' = getHeader e m := by
  ext1 h
  rw [getHeader_iff_bytes, getHeader_iff_bytes]
  exact forall₂_congr fun k hk => by rw [hread k hk]

/-! ## A header loaded -/

section
variable (h : Header) (s : State)
@[simp] theorem loadHeader_cfg : (loadHeader h s).cfg = s.cfg := rfl
@[simp] theorem loadHeader_inputs : (loadHeader h s).inputs = s.inputs := rfl
@[simp] theorem loadHeader_answers : (loadHeader h s).answers = s.answers := rfl
@[simp] theorem loadHeader_raised : (loadHeader h s).raised = s.raised := rfl
@[simp] theorem loadHeader_header : (loadHeader h s).block.header = h := rfl
@[simp] theorem loadHeader_flen : (loadHeader h s).block.flen = s.block.flen := rfl
@[simp] theorem loadHeader_fbuf : (loadHeader h s).block.fbuf = s.block.fbuf := rfl
@[simp] theorem loadHeader_rxv : (loadHeader h s).block.rxv = true := rfl
@[simp] theorem loadHeader_txv : (loadHeader h s).block.txv = false := rfl
@[simp] theorem loadHeader_eMalf : (loadHeader h s).block.eMalf = s.block.eMalf := rfl
@[simp] theorem loadHeader_eIll : (loadHeader h s).block.eIll = s.block.eIll := rfl
@[simp] theorem loadHeader_eOvr : (loadHeader h s).block.eOvr = s.block.eOvr := rfl

/-- A header loaded twice is loaded once. -/
@[simp] theorem loadHeader_loadHeader : loadHeader h (loadHeader h s) = loadHeader h s := rfl

/-- R58: PAVAIL counts the bytes of the frame past the header. -/
theorem loadHeader_pavail_toNat {s : State} (hlen : 16 ≤ s.block.flen.toNat) :
    (loadHeader h s).block.pavail.toNat = s.block.flen.toNat - 16 :=
  BitVec.toNat_sub_of_le (y := 16#32) hlen
end

end Sys2Proof.Machine
end

section
/-! SUPPORT. The statements on the deserializer (41_deserializer.md R58, R59, R66). -/

namespace Sys2Proof.Machine

/-- Settles O18: FBUF[0..15] still hold the outgoing header, so it is what DECODE loads; and FLEN, at least 16, is what ENCODE
counted. -/
theorem headerRoundTrip : Obligations.HeaderRoundTrip := by
  intro s i hi hs
  refine ⟨serialize (fcOf i) s, exec_of_encode_or_encodeFc hi s, fun t' hcfg _ hflen hbytes => ?_⟩
  have hlen : t'.block.flen.toNat = 16 + min s.block.len.toNat s.cfg.maxPayload := by
    rw [hflen, serialize_flen_toNat hs]
  have hget : getHeader t'.cfg.endian t'.block.fbuf = some (outgoingHeader (fcOf i) s.block) := by
    rw [hcfg, getHeader_congr _ hbytes]
    exact getHeader_serialize (fcOf i) s
  refine ⟨_, exec_decode_of_header (by omega) hget, rfl, rfl, rfl, corOut_fcOf i s.block.cor, rfl, hflen, ?_,
    loadHeader_rxv _ t', loadHeader_txv _ t', loadHeader_eMalf _ t', loadHeader_eIll _ t', loadHeader_eOvr _ t',
    loadHeader_raised _ t'⟩
  rw [loadHeader_pavail_toNat _ (by omega), hlen, Nat.add_sub_cancel_left]

/-- Settles O15: the header read is the one whose wire form FBUF[0..15] are, and the state it is loaded into still holds those
bytes and that FLEN, so a second DECODE reads the same. -/
theorem decodeLoadsTheHeader : Obligations.DecodeLoadsTheHeader := by
  intro s
  refine ⟨fun hlen hval => ?_, exec_decode_of_unvalued, fun hshort => ⟨_, exec_decode_of_short hshort, rfl⟩⟩
  obtain ⟨h, hget⟩ := exists_getHeader_of_valued s.cfg.endian hval
  have hagain := exec_decode_of_header (s := loadHeader h s) hlen hget
  rw [loadHeader_loadHeader] at hagain
  exact ⟨loadHeader h s, exec_decode_of_header hlen hget, getHeader_iff_bytes.1 hget, rfl,
    loadHeader_pavail_toNat h hlen, hagain⟩

/-- Settles O16: FLEN is looked at first, so a short frame fails whatever FBUF holds. -/
theorem shortFrameDecodeFails : Obligations.ShortFrameDecodeFails := fun _ hlen => exec_decode_of_short hlen

end Sys2Proof.Machine
end

section
/-! SUPPORT. The STATUS word (10_state.md R17; 41_deserializer.md R61 to R65): its bits by position, and the statement. -/

namespace Sys2Proof.Machine

/-- The layout of STATUS (R17): what stands at each bit position. -/
def statusBit (c : Config) (b : Block) : Nat → Bool
  | 0 => b.rxv
  | 1 => b.txv
  | 2 => b.finf
  | 3 => b.corf
  | 4 => b.finNc
  | 5 => b.corNc
  | 6 => b.lenovr c
  | 8 => b.eMalf
  | 9 => b.eIll
  | 10 => b.eOvr
  | _ => false

theorem statusBit_reserved (c : Config) (b : Block) {k : Nat} (hk : k = 7 ∨ 11 ≤ k) : statusBit c b k = false := by
  obtain rfl | hk := hk
  · rfl
  · obtain ⟨n, rfl⟩ := Nat.exists_eq_add_of_le' hk
    rfl

/-- The flags of the STATUS word do not overlap: each bit is its own position's. -/
theorem getLsbD_statusWord (c : Config) (b : Block) (j : Nat) : (statusWord c b).getLsbD j = statusBit c b j := by
  by_cases hj : j < 32
  · simp only [statusWord, BitVec.getLsbD_or, getLsbD_flagAt _ _ hj]
    unfold statusBit
    split <;> simp_all
  · rw [BitVec.getLsbD_of_ge _ _ (by omega), statusBit_reserved c b (by omega)]

/-! ## The live flags (R61 to R65) -/

theorem finf_iff (b : Block) : b.finf = true ↔ b.fin = 0x0001#16 := beq_iff_eq
theorem corf_iff (b : Block) : b.corf = true ↔ b.cor = 0x0001#16 := beq_iff_eq

theorem finNc_iff (b : Block) : b.finNc = true ↔ b.fin ≠ 0x0000#16 ∧ b.fin ≠ 0x0001#16 := by
  rw [Block.finNc, Bool.and_eq_true, bne_iff_ne, bne_iff_ne]

theorem corNc_iff (b : Block) : b.corNc = true ↔ b.cor ≠ 0x0000#16 ∧ b.cor ≠ 0x0001#16 := by
  rw [Block.corNc, Bool.and_eq_true, bne_iff_ne, bne_iff_ne]

theorem lenovr_iff (c : Config) (b : Block) : b.lenovr c = true ↔ c.maxPayload < b.len.toNat := decide_eq_true_iff

/-- Settles O35: a STATUS read answers the STATUS word, whose bits are the layout's. -/
theorem statusBitsReportTheRegisters : Obligations.StatusBitsReportTheRegisters := by
  intro s
  refine ⟨statusWord s.cfg s.block, memRead_register (r := .status) (by decide) s, ?_⟩
  simp only [getLsbD_statusWord]
  exact ⟨finf_iff _, corf_iff _, finNc_iff _, corNc_iff _, lenovr_iff _ _, rfl, rfl, rfl, rfl, rfl,
    fun _ => statusBit_reserved _ _⟩

end Sys2Proof.Machine
end

section
/-! SUPPORT. The statements on the control commands (42_control.md R67, R68), and STATUS of the reset registers. -/

namespace Sys2Proof.Machine

/-! ## STATUS of the reset registers -/

/-- No byte of the frame buffer shows in STATUS (R17). -/
@[simp] theorem statusWord_setFbuf (c : Config) (b : Block) (m : Memory) :
    statusWord c { b with fbuf := m } = statusWord c b := rfl

theorem lenovr_reset (c : Config) : Block.reset.lenovr c = false := decide_eq_false (Nat.not_lt_zero c.maxPayload)

/-- STATUS reads 0 whatever the parameters are: LENOVR, its one flag that looks at them, is 0 with LEN 0. -/
@[simp] theorem statusWord_reset (c : Config) : statusWord c Block.reset = 0x00000000#32 := by
  rw [statusWord, lenovr_reset]
  decide

/-! ## The statements -/

/-- Settles O8: NOP's arm answers the state it was given. -/
theorem nopChangesNothing : Obligations.NopChangesNothing := exec_nop

/-- Settles O9: CLEAR leaves the reset block around the FBUF it found; its FLEN, 0, is below the 16 bytes of a header, so a
DECODE of it fails before it reads a byte. -/
theorem clearResetsAllButTheBuffer : Obligations.ClearResetsAllButTheBuffer := by
  intro s
  have hstatus : statusWord s.cfg { Block.reset with fbuf := s.block.fbuf } = 0x00000000#32 := by
    rw [statusWord_setFbuf, statusWord_reset]
  have hshort : ({ Block.reset with fbuf := s.block.fbuf } : Block).flen.toNat < 16 := Nat.zero_lt_succ 15
  exact ⟨_, exec_clear s, rfl, hstatus, rfl, _, exec_decode_of_short hshort, rfl, rfl⟩

end Sys2Proof.Machine
end

section
/-! SUPPORT. What raises each sticky error bit (60_exceptions.md R70 to R72): the raising inputs, how each input leaves a bit
that is 0, and the three statements. -/

namespace Sys2Proof.Machine

/-! ## The inputs that raise a bit -/

/-- The input x raises e at s: a DECODE of a short frame (R70), an illegal word written to CMD (R71), a value above BUF_SIZE
written to FLEN (R72). -/
def RaisedBy (s : State) (x : HostInput) : ErrorBit → Prop
  | .malf => IsCommand s.cfg x (encodeCmd .decode) ∧ s.block.flen.toNat < 16
  | .ill => ∃ w, ¬LegalWord w ∧ IsCommand s.cfg x w
  | .ovr => ∃ v : Word, s.cfg.bufSize < v.toNat ∧ Writes32 s.cfg x 0x01C v

/-- Nothing but a 32-bit write raises a bit. -/
theorem not_raisedBy_of_not_writes32 {s : State} {x : HostInput} (hx : ∀ off v, ¬Writes32 s.cfg x off v)
    (e : ErrorBit) : ¬RaisedBy s x e := by
  cases e with
  | malf => exact fun ⟨hw, _⟩ => hx _ _ hw
  | ill => exact fun ⟨w, _, hw⟩ => hx _ w hw
  | ovr => exact fun ⟨v, _, hw⟩ => hx _ v hw

/-- R70 to R72: a write raises a bit at two offsets: E_MALF or E_ILL at CMD, by its word, and E_OVR at FLEN, by its value. -/
theorem raisedBy_write_iff (s : State) (w : Width) (off : Nat) (v : Word) (e : ErrorBit) :
    RaisedBy s (.access (.write w (s.cfg.base + off) v)) e ↔
      w = .w32 ∧
        ((off = 0x000 ∧
            ((e = .malf ∧ v = encodeCmd .decode ∧ s.block.flen.toNat < 16) ∨ (e = .ill ∧ ¬LegalWord v))) ∨
          (off = 0x01C ∧ e = .ovr ∧ s.cfg.bufSize < v.toNat)) := by
  cases e with
  | malf => simp [RaisedBy, isCommand_write_iff, and_assoc]
  | ill => simp [RaisedBy, isCommand_write_iff, and_assoc, and_comm]
  | ovr => simp [RaisedBy, writes32_write_iff, and_assoc, and_comm]

/-! ## A bit after a command and after an input -/

/-- R70, R68: after a command a sticky bit is 1 when a short DECODE raised it, or it was 1 and the command is not CLEAR. -/
theorem exec_errorBit {i : Instr} {s t : State} (h : exec i s = .next t) (e : ErrorBit) :
    t.block.errorBit e = true ↔
      (e = .malf ∧ i = .decode ∧ s.block.flen.toNat < 16) ∨ (i ≠ .clear ∧ s.block.errorBit e = true) := by
  cases i with
  | nop => cases h; simp
  | encode => cases h; cases e <;> simp [Block.errorBit]
  | encodeFc => cases h; cases e <;> simp [Block.errorBit]
  | clear => cases h; cases e <;> simp [Block.errorBit, Block.reset]
  | decode =>
    rw [exec_decode] at h
    rcases execDecode_cases s with ⟨hl, hd⟩ | ⟨hl, _, _, hd⟩ | ⟨_, _, hd⟩ <;> rw [hd] at h <;> cases h
    · cases e <;> simp [decodeFail, Block.errorBit, Block.setError, hl]
    · cases e <;> simp [Block.errorBit, hl]

/-- R72: a write to FLEN raises E_OVR when the value is above BUF_SIZE, and leaves the sticky bits otherwise. -/
theorem writeFlen_errorBit (v : Word) (s : State) (e : ErrorBit) :
    (s.writeFlen v).block.errorBit e = true ↔
      (e = .ovr ∧ s.cfg.bufSize < v.toNat) ∨ s.block.errorBit e = true := by
  rcases Nat.lt_or_ge s.cfg.bufSize v.toNat with hv | hv
  · rw [writeFlen_above hv]
    cases e <;> simp [Block.errorBit, Block.setError, hv]
  · rw [writeFlen_within hv]
    cases e <;> simp [Block.errorBit, Nat.not_lt.2 hv]

/-- R34: a write to STATUS sets no sticky bit. -/
theorem clearErrors_errorBit {b : Block} {e : ErrorBit} (h0 : b.errorBit e = false) (v : Word) :
    (b.clearErrors v).errorBit e = false := by
  cases e <;> exact Bool.and_eq_false_iff.2 (.inl h0)

/-- R70 to R72, of one performed input: a sticky bit that is 0 becomes 1 exactly when the input raises it. -/
theorem performed_errorBit {s t : State} {x : HostInput} {e : ErrorBit} (h : Performed s x t)
    (h0 : s.block.errorBit e = false) : t.block.errorBit e = true ↔ RaisedBy s x e := by
  have hkeep (hbit : t.block.errorBit e = false) (hx : ¬RaisedBy s x e) : t.block.errorBit e = true ↔ RaisedBy s x e :=
    iff_of_false (Bool.not_eq_true _ ▸ hbit) hx
  cases h with
  | command w i u hd he =>
    obtain rfl := decodeCmd_eq_ok_iff.1 hd
    rw [answer_block, exec_errorBit he, raisedBy_write_iff]
    simp [h0, legalWord_encodeCmd]
  | illegal w r hd =>
    have hw : ¬LegalWord w := fun hw => by
      obtain ⟨i, rfl⟩ := legalWord_iff_exists_encodeCmd.1 hw
      simp at hd
    have hne : w ≠ encodeCmd .decode := fun h => hw (h ▸ legalWord_encodeCmd .decode)
    rw [answer_block, raise_block, setError_errorBit, raisedBy_write_iff]
    simp [h0, hw, hne]
  | flen v =>
    rw [answer_block, writeFlen_errorBit, raisedBy_write_iff]
    simp [h0]
  | status v => exact hkeep (clearErrors_errorBit h0 v) (by simp [raisedBy_write_iff])
  | seq | ack | fin | cor | len => exact hkeep (by cases e <;> exact h0) (by simp [raisedBy_write_iff])
  | ignoredWrite off v hlo hhi => exact hkeep h0 (by rw [raisedBy_write_iff]; omega)
  | frameWrite i v hi hw => exact hkeep (by cases e <;> exact h0) (by simp [raisedBy_write_iff])
  | tailWrite i v hi => exact hkeep h0 (by simp [raisedBy_write_iff])
  | busErrorWrite w off v hb =>
    refine hkeep h0 ?_
    rw [raisedBy_write_iff]
    rintro ⟨rfl, ⟨rfl, -⟩ | ⟨rfl, -⟩⟩ <;> simp at hb
  | reset => exact hkeep (by cases e <;> rfl) (not_raisedBy_of_not_writes32 (fun _ _ hw => by cases hw) e)
  | registerRead | frameRead | tailRead | busErrorRead =>
    exact hkeep h0 (not_raisedBy_of_not_writes32 (fun _ _ hw => by cases hw) e)

/-- R70 to R72, of a step. -/
theorem step_errorBit {s t : State} {x : HostInput} {rest : List HostInput} {e : ErrorBit} (hx : s.inputs = x :: rest)
    (hstep : step s = .next t) (h0 : s.block.errorBit e = false) : t.block.errorBit e = true ↔ RaisedBy s x e := by
  have hp := performed_errorBit (performed_of_step hx hstep) h0
  cases e <;> exact hp

/-- A step whose input is a 32-bit write is that MemWrite, with the input taken. -/
theorem step_of_writes32 {s : State} {x : HostInput} {rest : List HostInput} {off : Nat} {v : Word}
    (hx : s.inputs = x :: rest) (hw : Writes32 s.cfg x off v) :
    step s = memWrite .w32 off v { s with inputs := rest } := by
  rw [step, hx, hw]
  rfl

/-! ## The statements -/

/-- Settles O38: of one performed input E_MALF is raised as R70 says, and a DECODE of at least a header that completes is a
header loaded. -/
theorem malformedHeaderOnlyFromShortDecode : Obligations.MalformedHeaderOnlyFromShortDecode := by
  refine ⟨fun s t x rest hx hstep h0 => ?_, fun s t hlen hexec => ?_⟩
  · exact step_errorBit (e := .malf) hx hstep h0
  · have hmalf := exec_errorBit hexec .malf
    refine ⟨(exec_rxv hexec).2 (.inl ⟨rfl, hlen⟩), Bool.eq_iff_iff.2 (hmalf.trans ?_)⟩
    simp [Block.errorBit, Nat.not_lt.2 hlen]

/-- Settles O39: of one performed input E_ILL is raised as R71 says, and the effect of an illegal word is the command
port's (O4). -/
theorem illegalCommandOnlyFromIllegalWord : Obligations.IllegalCommandOnlyFromIllegalWord := by
  intro s t x rest hx hstep
  refine ⟨step_errorBit (e := .ill) hx hstep, fun w hw hcmd => ?_⟩
  rw [step_of_writes32 hx hcmd, illegalWordOnlyRaisesEIll.2 _ w hw] at hstep
  cases hstep
  rfl

/-- Settles O40: of one performed input E_OVR is raised as R72 says, and the clamp is the FLEN write's (O26). -/
theorem overrunOnlyFromLongFlen : Obligations.OverrunOnlyFromLongFlen := by
  intro s t x rest hx hstep
  refine ⟨step_errorBit (e := .ovr) hx hstep, fun v hv hwrite => ?_⟩
  obtain ⟨n, hn, hclamp⟩ := (flenWriteClampsToTheBuffer { s with inputs := rest } v).1 hv
  rw [step_of_writes32 hx hwrite, hclamp] at hstep
  cases hstep
  exact ⟨rfl, hn⟩

end Sys2Proof.Machine
end

section
/-! SUPPORT. The fault UndefinedByte (60_exceptions.md R74): the reads that raise it, that a fault ends every longer run, and
the statement. -/

namespace Sys2Proof.Machine

/-! ## The reads that raise it -/

/-- R58, R74: DECODE alone faults, by a header that it looks at and that is not valued throughout. -/
theorem exec_eq_undefinedByte_iff {i : Instr} {s : State} :
    exec i s = .fault .undefinedByte ↔ i = .decode ∧ 16 ≤ s.block.flen.toNat ∧ ¬HeaderValued s.block.fbuf := by
  refine ⟨fun h => ?_, fun ⟨hi, hlen, hval⟩ => hi ▸ exec_decode_of_unvalued hlen hval⟩
  obtain ⟨t, ht⟩ | ⟨rfl, -⟩ := exec_cases i s
  · rw [ht] at h; cases h
  · rw [exec_decode] at h
    rcases execDecode_cases s with ⟨-, hd⟩ | ⟨-, _, -, hd⟩ | ⟨hlen, hget, -⟩
    · rw [hd] at h; cases h
    · rw [hd] at h; cases h
    · exact ⟨rfl, hlen, getHeader_eq_none_iff.1 hget⟩

/-- A write to CMD faults only as the command it starts. -/
theorem startCommand_eq_fault {w : Word} {s : State} {r : Fault} (h : startCommand w s = .fault r) :
    ∃ i, w = encodeCmd i ∧ exec i s = .fault r := by
  unfold startCommand at h
  split at h
  · next i hd => exact ⟨i, decodeCmd_eq_ok_iff.1 hd, h⟩
  · cases h

/-- No register's write faults but CMD's. -/
theorem writeReg_eq_fault {reg : Reg} {v : Word} {s : State} {r : Fault} (h : writeReg reg v s = .fault r) :
    reg = .cmd ∧ startCommand v s = .fault r := by
  cases reg with
  | cmd => exact ⟨rfl, h⟩
  | _ => cases h

/-- R74: a read faults by a frame byte without a value. -/
theorem readTarget_eq_fault_iff {g : Target} {s : State} {r : Fault} :
    readTarget g s = .fault r ↔ r = .undefinedByte ∧ ∃ i, g = .frameByte i ∧ s.block.fbuf.read i = none := by
  cases g with
  | frameByte i => cases hb : s.block.fbuf.read i <;> simp [readTarget, hb, eq_comm]
  | _ => simp [readTarget]

/-- A write faults only as the register's write it is. -/
theorem writeTarget_eq_fault {g : Target} {v : Word} {s : State} {r : Fault} (h : writeTarget g v s = .fault r) :
    ∃ reg, g = .reg reg ∧ writeReg reg v s = .fault r := by
  cases g with
  | reg reg => exact ⟨reg, rfl, answerDone_eq_fault.1 h⟩
  | _ => cases h

/-- CMD lies at offset 0 of the window and nowhere else (R27). -/
theorem target_eq_cmd {c : Config} {w : Width} {off : Nat} (h : target c w off = .reg .cmd) : w = .w32 ∧ off = 0x000 := by
  rcases target_cases c w off with ⟨-, hw, -, ht⟩ | ⟨-, -, -, ht⟩ | ⟨-, -, -, ht⟩ | ⟨-, ht⟩ <;> rw [ht] at h
  · rcases regAt_cases off with ⟨reg, -, hoff, hreg⟩ | hreg <;> rw [hreg] at h <;> cases h
    exact ⟨hw, hoff⟩
  · cases h
  · cases h
  · cases h

/-- The frame byte FBUF[i] is reached at 0x400 + i, by a byte access, and lies inside FBUF (R39). -/
theorem target_eq_frameByte {c : Config} {w : Width} {off i : Nat} (h : target c w off = .frameByte i) :
    w = .w8 ∧ off = 0x400 + i ∧ i < c.bufSize := by
  rcases target_cases c w off with ⟨-, -, -, ht⟩ | ⟨hlo, hw, hi, ht⟩ | ⟨-, -, -, ht⟩ | ⟨-, ht⟩ <;> rw [ht] at h
  · cases h
  · obtain rfl := Target.frameByte.inj h
    exact ⟨hw, (Nat.add_sub_cancel' hlo).symm, hi⟩
  · cases h
  · cases h

/-- R74, of one access: the fault UndefinedByte is a byte read of an unvalued frame byte or a faulting DECODE. -/
theorem access_eq_undefinedByte {a : Access} {s : State} (h : access a s = .fault .undefinedByte) :
    (∃ i, i < s.cfg.bufSize ∧ 0x400 + i < 0x1000 ∧ a = .read .w8 (s.cfg.base + (0x400 + i)) ∧
        s.block.fbuf.read i = none) ∨
      (IsCommand s.cfg (.access a) (encodeCmd .decode) ∧ exec .decode s = .fault .undefinedByte) := by
  rcases access_cases a s with ⟨-, ha⟩ | ⟨off, hoff, ⟨w, rfl, ha⟩ | ⟨w, v, rfl, ha⟩⟩ <;> rw [ha] at h
  · cases h
  · obtain ⟨-, i, ht, hread⟩ := readTarget_eq_fault_iff.1 h
    obtain ⟨rfl, rfl, hi⟩ := target_eq_frameByte ht
    exact .inl ⟨i, hi, hoff, rfl, hread⟩
  · obtain ⟨reg, ht, hreg⟩ := writeTarget_eq_fault h
    obtain ⟨rfl, hcmd⟩ := writeReg_eq_fault hreg
    obtain ⟨rfl, rfl⟩ := target_eq_cmd ht
    obtain ⟨i, rfl, hexec⟩ := startCommand_eq_fault hcmd
    obtain ⟨rfl, -⟩ := exec_eq_undefinedByte_iff.1 hexec
    exact .inr ⟨rfl, hexec⟩

/-! ## A fault is final -/

/-- A run that ended in a fault ends in it however many more steps are asked of it. -/
theorem run_add_of_fault {n : Nat} {s : State} {r : Fault} (h : core.run n s = .fault r) (m : Nat) :
    core.run (n + m) s = .fault r := by
  induction n generalizing s with
  | zero => cases h
  | succ n ih =>
    rw [Nat.succ_add]
    cases hs : step s with
    | next t =>
      rw [run_succ_of_next _ hs] at h ⊢
      exact ih h
    | fault r' =>
      rw [run_succ_of_fault _ hs] at h ⊢
      exact h
    | refused r' =>
      have hs' : core.step s = .refused r' := hs
      simp only [Host.Core.run, hs'] at h
      cases h

/-- A run that ends so: a byte read of FBUF[0] right after reset, with m more steps asked of it. -/
theorem run_reset_unwrittenRead (m : Nat) :
    core.run (1 + m) { State.reset with inputs := [.access (.read .w8 0x400)] } = .fault .undefinedByte :=
  run_add_of_fault rfl m

/-! ## The statement -/

/-- Settles O44: a step is its first input's access, which faults so by one of two reads; each of them does; and a fault ends
every longer run. -/
theorem undefinedByteExactlyOnUnwrittenReads : Obligations.UndefinedByteExactlyOnUnwrittenReads := by
  refine fun s => ⟨⟨fun h => ?_, ?_⟩, fun n m h => run_add_of_fault h m⟩
  · rcases step_cases s with ⟨-, hs⟩ | ⟨a, rest, hx, hs⟩ | ⟨rest, -, hs⟩ <;> rw [hs] at h
    · cases h
    · rcases access_eq_undefinedByte h with ⟨i, hi, hwin, rfl, hread⟩ | ⟨hcmd, hexec⟩
      · exact .inl ⟨i, rest, hi, hwin, hx, hread⟩
      · obtain ⟨-, hlen, hval⟩ := exec_eq_undefinedByte_iff.1 hexec
        unfold HeaderValued at hval
        push Not at hval
        exact .inr ⟨_, rest, hx, hcmd, hlen, hval⟩
    · cases h
  · rintro (⟨i, rest, hi, hwin, hx, hread⟩ | ⟨x, rest, hx, hcmd, hlen, k, hk, hread⟩)
    · have hstep : step s = memRead .w8 (0x400 + i) { s with inputs := rest } := by rw [step, hx]; rfl
      rw [hstep, memRead_frameByte (s := { s with inputs := rest }) hi hwin]
      exact readTarget_eq_fault_iff.2 ⟨rfl, i, rfl, hread⟩
    · obtain ⟨-, -, -, hdecode, -⟩ := commandPortRunsTheCommand { s with inputs := rest }
      rw [step_of_writes32 hx hcmd, hdecode, answerDone_eq_fault]
      exact exec_decode_of_unvalued hlen fun hval => hval k hk hread

end Sys2Proof.Machine
end

section
/-! SUPPORT. Hardware reset (70_reset_and_hazards.md R81): the step that performs it, and what its block reads as. -/

namespace Sys2Proof.Machine

/-- A reset input completes, and its step gives the block its reset value and takes the input; nothing else changes. -/
theorem step_of_reset {s : State} {rest : List HostInput} (h : s.inputs = .reset :: rest) :
    step s = .next { s with inputs := rest, block := Block.reset } := by
  rw [step, h]
  rfl

/-- The block is the reset block in each state the statement speaks of. -/
theorem block_eq_reset {s : State}
    (hs : s = State.reset ∨ (∃ c, s = State.resetOf c) ∨
      (∃ s0 rest, s0.inputs = HostInput.reset :: rest ∧ step s0 = .next s ∧ s.cfg = s0.cfg)) :
    s.block = Block.reset := by
  obtain rfl | ⟨c, rfl⟩ | ⟨s0, rest, hx, hstep, -⟩ := hs
  · rfl
  · rfl
  · obtain rfl := Host.Outcome.next.inj ((step_of_reset hx).symm.trans hstep)
    rfl

/-- With the reset block, STATUS reads 0 under any parameters. -/
theorem memRead_status_of_reset {s : State} (hb : s.block = Block.reset) :
    memRead .w32 0x004 s = .next (s.answer (.word 0x00000000#32)) := by
  have hread : memRead .w32 0x004 s = .next (s.answer (.word (statusWord s.cfg s.block))) :=
    memRead_register (r := .status) (by decide) s
  rw [hread, hb, statusWord_reset]

/-- Settles O50: every state after reset has the reset block, whose fields are the stated values; STATUS and CFG are read
from it; and a reset input's step is known in full. -/
theorem resetLeavesTheStatedValues : Obligations.ResetLeavesTheStatedValues := by
  refine ⟨fun s hs => ?_, fun s rest hx => ⟨_, step_of_reset hx, rfl⟩⟩
  have hstatus := memRead_status_of_reset (block_eq_reset hs)
  have hcfg := memRead_register (r := .cfg) (by decide) s
  obtain ⟨c, b, inputs, answers, raised⟩ := s
  obtain rfl : b = Block.reset := block_eq_reset hs
  exact ⟨rfl, rfl, rfl, rfl, rfl, rfl, rfl, rfl, rfl, rfl, rfl, rfl, read_nil, hstatus, hcfg⟩

end Sys2Proof.Machine
end

section
/-! SUPPORT. What stands around the block: what a command, an input and a step do to the parameters, the inputs, the answers
and the log of raises; and how a property is shown of every step. -/

namespace Sys2Proof.Machine

/-! ## A command -/

/-- Settles O19: each arm rewrites the block alone; a DECODE of a short frame raises E_MALF besides. -/
theorem commandsTouchOnlyTheBlock : Obligations.CommandsTouchOnlyTheBlock := by
  intro i s t h
  cases i with
  | nop | encode | encodeFc | clear => cases h; exact ⟨rfl, rfl, rfl, .inl rfl⟩
  | decode =>
    rw [exec_decode] at h
    rcases execDecode_cases s with ⟨hshort, hd⟩ | ⟨-, _, -, hd⟩ | ⟨-, -, hd⟩ <;> rw [hd] at h <;> cases h
    · exact ⟨rfl, rfl, rfl, .inr ⟨rfl, hshort, rfl⟩⟩
    · exact ⟨rfl, rfl, rfl, .inl rfl⟩

theorem exec_cfg {i : Instr} {s t : State} (h : exec i s = .next t) : t.cfg = s.cfg := by
  obtain ⟨hcfg, -⟩ := commandsTouchOnlyTheBlock i s t h
  exact hcfg

theorem exec_inputs {i : Instr} {s t : State} (h : exec i s = .next t) : t.inputs = s.inputs := by
  obtain ⟨-, hinputs, -⟩ := commandsTouchOnlyTheBlock i s t h
  exact hinputs

/-! ## A write to FLEN -/

section
variable (v : Word) (s : State)
@[simp] theorem writeFlen_cfg : (s.writeFlen v).cfg = s.cfg := by unfold State.writeFlen; split <;> rfl
@[simp] theorem writeFlen_inputs : (s.writeFlen v).inputs = s.inputs := by unfold State.writeFlen; split <;> rfl
@[simp] theorem writeFlen_answers : (s.writeFlen v).answers = s.answers := by unfold State.writeFlen; split <;> rfl

theorem writeFlen_raised : (s.writeFlen v).raised = s.raised ∨ (s.writeFlen v).raised = .error .ovr :: s.raised := by
  unfold State.writeFlen
  split
  · exact .inr rfl
  · exact .inl rfl
end

/-! ## An input -/

section
variable {s t : State} {x : HostInput} (h : Performed s x t)
include h

theorem performed_cfg : t.cfg = s.cfg := by
  cases h with
  | command w i u hd he => exact (exec_cfg he :)
  | flen v => exact writeFlen_cfg v s
  | _ => rfl

theorem performed_inputs : t.inputs = s.inputs := by
  cases h with
  | command w i u hd he => exact (exec_inputs he :)
  | flen v => exact writeFlen_inputs v s
  | _ => rfl

/-- A reset is not answered; an access is, once (20_memory.md R43). -/
theorem performed_answers : (x = .reset ∧ t.answers = s.answers) ∨ ∃ a r, x = .access a ∧ t.answers = r :: s.answers := by
  cases h with
  | reset => exact .inl ⟨rfl, rfl⟩
  | command w i u hd he =>
    obtain ⟨-, -, hanswers, -⟩ := commandsTouchOnlyTheBlock i s u he
    exact .inr ⟨_, _, rfl, congrArg (Answer.done :: ·) hanswers⟩
  | flen v => exact .inr ⟨_, _, rfl, congrArg (Answer.done :: ·) (writeFlen_answers v s)⟩
  | _ => exact .inr ⟨_, _, rfl, rfl⟩

/-- At most one cause, in front of the log (60_exceptions.md section 3). -/
theorem performed_raised : t.raised = s.raised ∨ ∃ c, t.raised = c :: s.raised := by
  cases h with
  | command w i u hd he =>
    obtain ⟨-, -, -, hsame | ⟨-, -, hmalf⟩⟩ := commandsTouchOnlyTheBlock i s u he
    · exact .inl hsame
    · exact .inr ⟨_, hmalf⟩
  | flen v => exact (writeFlen_raised v s).imp id fun hovr => ⟨_, hovr⟩
  | illegal | busErrorWrite | busErrorRead => exact .inr ⟨_, rfl⟩
  | _ => exact .inl rfl
end

/-! ## A step -/

/-- A step idles with no input waiting, or performs the first. -/
theorem step_eq_next {s t : State} (h : step s = .next t) :
    (s.inputs = [] ∧ t = s) ∨ ∃ x rest, s.inputs = x :: rest ∧ Performed { s with inputs := rest } x t := by
  cases hx : s.inputs with
  | nil =>
    rw [step, hx] at h
    cases h
    exact .inl ⟨rfl, rfl⟩
  | cons x rest => exact .inr ⟨x, rest, rfl, performed_of_step hx h⟩

/-- What performing an input keeps, and does not look at the inputs still to come, every step keeps. -/
theorem step_keeps {P : State → Prop} (hinputs : ∀ s rest, P s → P { s with inputs := rest })
    (hperformed : ∀ s x t, P s → Performed s x t → P t) {s t : State} (hs : P s) (h : step s = .next t) : P t := by
  obtain ⟨-, rfl⟩ | ⟨x, rest, -, hp⟩ := step_eq_next h
  · exact hs
  · exact hperformed _ x t (hinputs s rest hs) hp

/-- Settles O6: an idle step is the state itself, and any other performs the first input with the rest still to come. -/
theorem stepPerformsOneInputInOrder : Obligations.StepPerformsOneInputInOrder := by
  intro s t h
  obtain ⟨hnil, rfl⟩ | ⟨x, rest, hx, hp⟩ := step_eq_next h
  · simp [hnil]
  · have hcfg := performed_cfg hp
    have hinputs := performed_inputs hp
    rw [hx]
    refine ⟨hcfg, hinputs, nofun, ?_⟩
    obtain ⟨rfl, ha⟩ | ⟨a, r, rfl, ha⟩ := performed_answers hp
    · exact ⟨nofun, fun _ _ => ha⟩
    · exact ⟨fun _ _ _ => ⟨r, ha⟩, nofun⟩

/-- Settles O43: an idle step raises nothing, and an input raises at most one cause. -/
theorem oneCausePerAccess : Obligations.OneCausePerAccess := by
  intro s t h
  obtain ⟨-, rfl⟩ | ⟨x, rest, -, hp⟩ := step_eq_next h
  · exact .inl rfl
  · have hraised := performed_raised hp
    exact hraised

/-! ## The log of raises -/

/-- The position of a sticky bit in STATUS (R17). -/
def errorPosition : ErrorBit → Nat
  | .malf => 8
  | .ill => 9
  | .ovr => 10

/-- R34: a write to STATUS clears the bits at whose positions the value is 1. -/
theorem clearErrors_errorBit_eq (v : Word) (b : Block) (e : ErrorBit) :
    (b.clearErrors v).errorBit e = (b.errorBit e && !v.getLsbD (errorPosition e)) := by
  cases e <;> rfl

@[simp] theorem errorBit_reset (e : ErrorBit) : Block.reset.errorBit e = false := by cases e <;> rfl

theorem errorsLogged_of_reset {s : State} (hb : s.block = Block.reset) : ErrorsLogged s := by
  simp [ErrorsLogged, hb]

/-- A raise logs the bit it sets (60_exceptions.md R69). -/
theorem errorsLogged_raise {s : State} (hs : ErrorsLogged s) (e : ErrorBit) : ErrorsLogged (s.raise e) := by
  intro e' he'
  rw [raise_block, setError_errorBit] at he'
  by_cases h : e' = e
  · exact h ▸ List.mem_cons_self
  · rw [if_neg h] at he'
    exact List.mem_cons_of_mem _ (hs e' he')

theorem exec_errorsLogged {i : Instr} {s t : State} (hs : ErrorsLogged s) (h : exec i s = .next t) :
    ErrorsLogged t := by
  intro e he
  obtain ⟨-, -, -, hlog⟩ := commandsTouchOnlyTheBlock i s t h
  obtain ⟨rfl, rfl, hshort⟩ | ⟨-, hset⟩ := (exec_errorBit h e).1 he
  · rw [exec_decode_of_short hshort] at h
    cases h
    exact List.mem_cons_self
  · obtain hsame | ⟨-, -, hmalf⟩ := hlog
    · exact hsame ▸ hs e hset
    · exact hmalf ▸ List.mem_cons_of_mem _ (hs e hset)

theorem writeFlen_errorsLogged {s : State} (hs : ErrorsLogged s) (v : Word) : ErrorsLogged (s.writeFlen v) := by
  unfold State.writeFlen
  split
  · exact errorsLogged_raise (s := { s with block := _ }) hs .ovr
  · exact hs

theorem performed_errorsLogged {s t : State} {x : HostInput} (hs : ErrorsLogged s) (h : Performed s x t) :
    ErrorsLogged t := by
  cases h with
  | reset => exact errorsLogged_of_reset rfl
  | command w i u hd he => exact fun e => exec_errorsLogged hs he e
  | illegal w r hd => exact errorsLogged_raise hs .ill
  | flen v => exact writeFlen_errorsLogged hs v
  | status v =>
    refine fun e he => hs e ?_
    rw [answer_block, clearErrors_errorBit_eq] at he
    exact (Bool.and_eq_true_iff.1 he).1
  | busErrorWrite | busErrorRead => exact fun e he => List.mem_cons_of_mem _ (hs e he)
  | _ => exact hs

/-- Settles O45: no bit is set at reset, and each way of performing an input logs the bit it raises. -/
theorem setErrorBitsStayLogged : Obligations.SetErrorBitsStayLogged :=
  ⟨errorsLogged_of_reset rfl,
    fun _ _ => step_keeps (P := ErrorsLogged) (fun _ _ hs => hs) fun _ _ _ => performed_errorsLogged⟩

end Sys2Proof.Machine
end

section
/-! SUPPORT. Good states (10_state.md sections 3 to 5): reset, each command, each input and each step against the
invariant. -/

namespace Sys2Proof.Machine

/-! ## The ways a state stays good -/

/-- The block of reset is good under any legal parameters. -/
theorem inv_of_reset {s : State} (hc : s.cfg.wf = true) (hb : s.block = Block.reset) : s.Inv where
  cfgWf := hc
  flenBound := hb ▸ Nat.zero_le _
  pavailBound := hb ▸ Nat.zero_le _
  bufferCanonical := hb ▸ List.Pairwise.nil
  bufferInside := hb ▸ nofun
  validityExclusive := hb ▸ nofun

section
variable {s : State} (hs : s.Inv)
include hs

/-- The invariant speaks of the parameters, the counts, the buffer and the validity bits alone. -/
theorem inv_of_validity {t : State} (hcfg : t.cfg = s.cfg) (hflen : t.block.flen = s.block.flen)
    (hpavail : t.block.pavail = s.block.pavail) (hfbuf : t.block.fbuf = s.block.fbuf)
    (hvalid : ¬(t.block.rxv = true ∧ t.block.txv = true)) : t.Inv where
  cfgWf := hcfg ▸ hs.cfgWf
  flenBound := hcfg ▸ hflen ▸ hs.flenBound
  pavailBound := hcfg ▸ hpavail ▸ hs.pavailBound
  bufferCanonical := hfbuf ▸ hs.bufferCanonical
  bufferInside := hcfg ▸ hfbuf ▸ hs.bufferInside
  validityExclusive := hvalid

theorem inv_of_block {t : State} (hcfg : t.cfg = s.cfg) (hblock : t.block = s.block) : t.Inv :=
  inv_of_validity hs hcfg (hblock ▸ rfl) (hblock ▸ rfl) (hblock ▸ rfl) (hblock ▸ hs.validityExclusive)

theorem inv_raise (e : ErrorBit) : (s.raise e).Inv := by
  refine inv_of_validity hs rfl (setError_flen ..) (setError_pavail ..) (setError_fbuf ..) ?_
  rw [raise_block, setError_rxv, setError_txv]
  exact hs.validityExclusive

/-- ENCODE's counts are the extent's, which ends inside FBUF, and it writes header bytes alone (R54, R55). -/
theorem inv_serialize (fc : Bool) : (serialize fc s).Inv where
  cfgWf := hs.cfgWf
  flenBound := serialize_flen_le hs.cfgWf fc
  pavailBound := (extent_toNat hs.cfgWf s.block.len).trans_le (Nat.min_le_right ..)
  bufferCanonical := wf_putHeader _ _ hs.bufferCanonical
  bufferInside := fun c hc => (mem_putHeader _ _ _ hc).elim (Nat.lt_add_right _) (hs.bufferInside c)
  validityExclusive := nofun

/-- A frame that fits FBUF has a payload within MAX_PAYLOAD (R58). -/
theorem inv_loadHeader {h : Header} (hlen : 16 ≤ s.block.flen.toNat) : (loadHeader h s).Inv where
  cfgWf := hs.cfgWf
  flenBound := hs.flenBound
  pavailBound := by
    rw [loadHeader_pavail_toNat h hlen]
    exact Nat.sub_le_iff_le_add'.2 hs.flenBound
  bufferCanonical := hs.bufferCanonical
  bufferInside := hs.bufferInside
  validityExclusive := nofun

theorem inv_decodeFail : (decodeFail s).Inv :=
  ⟨hs.cfgWf, hs.flenBound, Nat.zero_le _, hs.bufferCanonical, hs.bufferInside, nofun⟩

theorem inv_exec {i : Instr} {t : State} (h : exec i s = .next t) : t.Inv := by
  cases i with
  | nop => cases h; exact hs
  | encode => cases h; exact inv_serialize hs false
  | encodeFc => cases h; exact inv_serialize hs true
  | clear => cases h; exact ⟨hs.cfgWf, Nat.zero_le _, Nat.zero_le _, hs.bufferCanonical, hs.bufferInside, nofun⟩
  | decode =>
    rw [exec_decode] at h
    rcases execDecode_cases s with ⟨-, hd⟩ | ⟨hlen, _, -, hd⟩ | ⟨-, -, hd⟩ <;> rw [hd] at h <;> cases h
    · exact inv_decodeFail hs
    · exact inv_loadHeader hs hlen

/-- The clamp keeps FLEN inside FBUF (R37). -/
theorem inv_writeFlen (v : Word) : (s.writeFlen v).Inv := by
  rcases Nat.lt_or_ge s.cfg.bufSize v.toNat with hv | hv
  · rw [writeFlen_above hv]
    have hclamp : (BitVec.ofNat 32 s.cfg.bufSize).toNat ≤ s.cfg.bufSize :=
      (BitVec.toNat_ofNat ..).trans_le (Nat.mod_le ..)
    apply inv_raise
    exact ⟨hs.cfgWf, hclamp, hs.pavailBound, hs.bufferCanonical, hs.bufferInside, nofun⟩
  · rw [writeFlen_within hv]
    exact ⟨hs.cfgWf, hv, hs.pavailBound, hs.bufferCanonical, hs.bufferInside, nofun⟩

/-- A host byte write lies inside FBUF (R39). -/
theorem inv_writeFrameByte {i : Nat} (hi : i < s.cfg.bufSize) (v : Byte) :
    State.Inv { s with block := s.block.writeFrameByte i v } where
  cfgWf := hs.cfgWf
  flenBound := hs.flenBound
  pavailBound := hs.pavailBound
  bufferCanonical := wf_write _ _ hs.bufferCanonical
  bufferInside := fun c hc => (mem_write hc).elim (fun h => h ▸ hi) (hs.bufferInside c)
  validityExclusive := nofun

theorem inv_performed {t : State} {x : HostInput} (h : Performed s x t) : t.Inv := by
  cases h with
  | reset => exact inv_of_reset hs.cfgWf rfl
  | command w i u hd he => exact inv_of_block (inv_exec hs he) rfl rfl
  | illegal w r hd => exact inv_of_block (inv_raise hs .ill) rfl rfl
  | status v => exact inv_of_validity hs rfl rfl rfl rfl hs.validityExclusive
  | seq | ack | fin | cor | len => exact inv_of_validity hs rfl rfl rfl rfl nofun
  | flen v => exact inv_of_block (inv_writeFlen hs v) rfl rfl
  | frameWrite i v hi hw => exact inv_of_block (inv_writeFrameByte hs hi _) rfl rfl
  | _ => exact inv_of_block hs rfl rfl
end

/-! ## The statements -/

/-- Settles O51: every state after reset has the reset block. -/
theorem resetIsAGoodState : Obligations.ResetIsAGoodState :=
  ⟨inv_of_reset (by decide) rfl, fun _ hc => inv_of_reset hc rfl⟩

/-- Settles O52: each way of performing an input keeps the invariant, which does not look at the inputs. -/
theorem stepKeepsGoodStates : Obligations.StepKeepsGoodStates := fun _ _ =>
  step_keeps (P := State.Inv) (fun _ _ hs => inv_of_block hs rfl rfl) fun _ _ _ hs h => inv_performed hs h

end Sys2Proof.Machine
end

section
/-! SUPPORT. What RXV and TXV promise (10_state.md section 5), against each command, each input and each step. -/

namespace Sys2Proof.Machine

/-- The three ways an input can treat the frame and the validity bits: it runs a command; it clears both bits; or it leaves
all of the block but the sticky bits. -/
theorem performed_frame_cases {s t : State} {x : HostInput} (h : Performed s x t) :
    (∃ i u, exec i s = .next u ∧ t.block = u.block) ∨ (t.block.rxv = false ∧ t.block.txv = false) ∨
      ∃ m i o, t.block = { s.block with eMalf := m, eIll := i, eOvr := o } := by
  cases h with
  | reset | seq | ack | fin | cor | len | frameWrite => exact .inr (.inl ⟨rfl, rfl⟩)
  | flen v => exact .inr (.inl (writeFlen_validity v s))
  | command w i u hd he => exact .inl ⟨i, u, he, rfl⟩
  | _ => exact .inr (.inr ⟨_, _, _, rfl⟩)

/-! ## RXV -/

/-- R58: a successful DECODE keeps RXV's promise, NOP leaves it, and after any other command RXV is 0. -/
theorem rxvMeans_exec {i : Instr} {s t : State} (hs : RxvMeans s) (h : exec i s = .next t) : RxvMeans t := by
  intro hrxv
  obtain ⟨rfl, hlen⟩ | ⟨rfl, hold⟩ := (exec_rxv h).1 hrxv
  · rw [exec_decode] at h
    rcases execDecode_cases s with ⟨hshort, -⟩ | ⟨-, hdr, hget, hd⟩ | ⟨-, -, hd⟩
    · omega
    · rw [hd] at h
      cases h
      exact ⟨getHeader_iff_bytes.1 hget, hlen, loadHeader_pavail_toNat hdr hlen⟩
    · rw [hd] at h
      cases h
  · cases h
    exact hs hold

theorem rxvMeans_performed {s t : State} {x : HostInput} (hs : RxvMeans s) (h : Performed s x t) : RxvMeans t := by
  have hcfg := performed_cfg h
  unfold RxvMeans
  obtain ⟨i, u, he, hb⟩ | ⟨hrxv, -⟩ | ⟨_, _, _, hb⟩ := performed_frame_cases h
  · rw [hb, hcfg, ← exec_cfg he]
    exact rxvMeans_exec hs he
  · exact fun hset => absurd hset (Bool.eq_false_iff.1 hrxv)
  · rw [hb, hcfg]
    exact hs

/-- Settles O53: RXV is 0 at reset, and of the ways to perform an input a DECODE alone sets it. -/
theorem rxvMeansADecodedFrame : Obligations.RxvMeansADecodedFrame :=
  ⟨nofun, fun _ _ => step_keeps (P := RxvMeans) (fun _ _ hs => hs) fun _ _ _ => rxvMeans_performed⟩

/-! ## TXV -/

/-- R54 to R56: ENCODE, of either form, keeps TXV's promise. -/
theorem txvMeans_serialize {s : State} (hc : s.cfg.wf = true) (fc : Bool) : TxvMeans (serialize fc s) := by
  have hbytes := serialize_headerBytes fc s
  refine fun _ => ⟨?_, serialize_flen_toNat hc fc, extent_toNat hc s.block.len⟩
  cases fc with
  | false => exact .inl hbytes
  | true => exact .inr hbytes

theorem txvMeans_exec {i : Instr} {s t : State} (hc : s.cfg.wf = true) (hs : TxvMeans s) (h : exec i s = .next t) :
    TxvMeans t := by
  intro htxv
  obtain rfl | rfl | ⟨rfl, hold⟩ := (exec_txv h).1 htxv
  · cases h
    exact txvMeans_serialize hc false htxv
  · cases h
    exact txvMeans_serialize hc true htxv
  · cases h
    exact hs hold

theorem txvMeans_performed {s t : State} {x : HostInput} (hc : s.cfg.wf = true) (hs : TxvMeans s)
    (h : Performed s x t) : TxvMeans t := by
  have hcfg := performed_cfg h
  unfold TxvMeans
  obtain ⟨i, u, he, hb⟩ | ⟨-, htxv⟩ | ⟨_, _, _, hb⟩ := performed_frame_cases h
  · rw [hb, hcfg, ← exec_cfg he]
    exact txvMeans_exec hc hs he
  · exact fun hset => absurd hset (Bool.eq_false_iff.1 htxv)
  · rw [hb, hcfg]
    exact hs

/-- Settles O54: TXV is 0 at reset, and of the ways to perform an input ENCODE alone sets it. -/
theorem txvMeansABuiltFrame : Obligations.TxvMeansABuiltFrame := by
  refine ⟨nofun, fun s t hc hs h => ?_⟩
  exact (step_keeps (P := fun s => s.cfg.wf = true ∧ TxvMeans s) (fun _ _ hs => hs)
    (fun _ _ _ ⟨hc, hs⟩ h => ⟨performed_cfg h ▸ hc, txvMeans_performed hc hs h⟩) ⟨hc, hs⟩ h).2

end Sys2Proof.Machine
end

section
/-! SUPPORT. Non-interference of the sticky bits (60_exceptions.md section 4): from two states that differ in them and in the
answers at most, every operation ends alike. -/

namespace Sys2Proof.Machine

/-! ## The map -/

/-- Settles O33: the window is all there is to address. -/
theorem accessOutsideTheWindowFaults : Obligations.AccessOutsideTheWindowFaults := by
  intro s a hout
  rcases access_cases a s with ⟨-, hf⟩ | ⟨off, hoff, ⟨w, rfl, -⟩ | ⟨w, v, rfl, -⟩⟩
  · exact hf
  all_goals
    simp only [Access.addr] at hout
    omega

/-- A named register lies at its own offset and nowhere else (R27). -/
theorem target_eq_reg {c : Config} {w : Width} {off : Nat} {r : Reg} (hr : r ≠ .reserved)
    (h : target c w off = .reg r) : w = .w32 ∧ off = r.offset := by
  rcases target_cases c w off with ⟨-, hw, -, ht⟩ | ⟨-, -, -, ht⟩ | ⟨-, -, -, ht⟩ | ⟨-, ht⟩ <;> rw [ht] at h
  · obtain rfl := Target.reg.inj h
    rcases regAt_cases off with ⟨reg, -, hoff, hreg⟩ | hreg
    · exact ⟨hw, hreg ▸ hoff⟩
    · exact absurd hreg hr
  all_goals cases h

/-! ## The relation -/

/-- s with other sticky bits and other answers. -/
def State.setSticky (m i o : Bool) (as : List Answer) (s : State) : State :=
  { s with block := { s.block with eMalf := m, eIll := i, eOvr := o }, answers := as }

section
variable (m i o : Bool) (as : List Answer) (s : State)
@[simp] theorem setSticky_cfg : (s.setSticky m i o as).cfg = s.cfg := rfl
@[simp] theorem setSticky_inputs : (s.setSticky m i o as).inputs = s.inputs := rfl
@[simp] theorem setSticky_fbuf : (s.setSticky m i o as).block.fbuf = s.block.fbuf := rfl
end

theorem agreeButErrors_iff {s s' : State} : AgreeButErrors s s' ↔ ∃ m i o as, s' = s.setSticky m i o as := by
  refine ⟨fun h => ⟨_, _, _, _, h⟩, ?_⟩
  rintro ⟨m, i, o, as, rfl⟩
  rfl

/-- Two outcomes, with the answers as and as' given before, are alike: the same fault, or next states that differ in the
sticky bits and the answers at most, the same new answers in front of each. -/
inductive EndsAlike (as as' : List Answer) : Result → Result → Prop
  | next {t t' : State} (new : List Answer) (h : AgreeButErrors t t') (ht : t.answers = new ++ as)
      (ht' : t'.answers = new ++ as') : EndsAlike as as' (.next t) (.next t')
  | fault (r : Fault) : EndsAlike as as' (.fault r) (.fault r)

theorem endsAlike_answerDone {as as' : List Answer} {r r' : Result} (h : EndsAlike as as' r r') :
    EndsAlike as as' (answerDone r) (answerDone r') := by
  cases h with
  | fault r => exact .fault r
  | @next t t' new h ht ht' =>
    obtain ⟨m, i, o, new', rfl⟩ := agreeButErrors_iff.1 h
    exact .next (.done :: new) rfl (congrArg (Answer.done :: ·) ht) (congrArg (Answer.done :: ·) ht')

/-! ## The operations -/

section
variable (m i o : Bool) (as : List Answer) (s : State)

theorem endsAlike_exec (c : Instr) : EndsAlike s.answers as (exec c s) (exec c (s.setSticky m i o as)) := by
  cases c with
  | nop | encode | encodeFc | clear => exact .next [] rfl rfl rfl
  | decode =>
    rcases execDecode_cases s with ⟨hlen, -⟩ | ⟨hlen, hdr, hget, -⟩ | ⟨hlen, hnone, -⟩
    · rw [exec_decode_of_short hlen, exec_decode_of_short (s := s.setSticky m i o as) hlen]
      exact .next [] rfl rfl rfl
    · rw [exec_decode_of_header hlen hget, exec_decode_of_header (s := s.setSticky m i o as) hlen hget]
      exact .next [] rfl rfl rfl
    · have hval := getHeader_eq_none_iff.1 hnone
      rw [exec_decode_of_unvalued hlen hval, exec_decode_of_unvalued (s := s.setSticky m i o as) hlen hval]
      exact .fault _

theorem endsAlike_writeFlen (v : Word) :
    EndsAlike s.answers as (.next (s.writeFlen v)) (.next ((s.setSticky m i o as).writeFlen v)) := by
  rcases Nat.lt_or_ge s.cfg.bufSize v.toNat with hv | hv
  · rw [writeFlen_above hv, writeFlen_above (s := s.setSticky m i o as) hv]
    exact .next [] rfl rfl rfl
  · rw [writeFlen_within hv, writeFlen_within (s := s.setSticky m i o as) hv]
    exact .next [] rfl rfl rfl

theorem endsAlike_startCommand (w : Word) :
    EndsAlike s.answers as (startCommand w s) (startCommand w (s.setSticky m i o as)) := by
  unfold startCommand
  cases decodeCmd w with
  | ok c => exact endsAlike_exec m i o as s c
  | error r => exact .next [] rfl rfl rfl

theorem endsAlike_writeTarget (g : Target) (v : Word) :
    EndsAlike s.answers as (writeTarget g v s) (writeTarget g v (s.setSticky m i o as)) := by
  cases g with
  | reg r =>
    apply endsAlike_answerDone
    cases r with
    | cmd => exact endsAlike_startCommand m i o as s v
    | flen => exact endsAlike_writeFlen m i o as s v
    | _ => exact .next [] rfl rfl rfl
  | _ => exact .next [_] rfl rfl rfl

/-- STATUS aside, a read does not look at the sticky bits. -/
theorem endsAlike_readTarget {g : Target} (hg : g ≠ .reg .status) :
    EndsAlike s.answers as (readTarget g s) (readTarget g (s.setSticky m i o as)) := by
  cases g with
  | reg r =>
    cases r with
    | status => exact absurd rfl hg
    | _ => exact .next [_] rfl rfl rfl
  | frameByte k =>
    simp only [readTarget, setSticky_fbuf]
    cases s.block.fbuf.read k with
    | some b => exact .next [_] rfl rfl rfl
    | none => exact .fault _
  | _ => exact .next [_] rfl rfl rfl

/-- An access ends alike unless it reads STATUS. -/
theorem endsAlike_access {a : Access} (ha : a ≠ .read .w32 (s.cfg.base + 0x004)) :
    EndsAlike s.answers as (access a s) (access a (s.setSticky m i o as)) := by
  rcases access_cases a s with ⟨hout, hf⟩ | ⟨off, hoff, ⟨w, rfl, ho⟩ | ⟨w, v, rfl, ho⟩⟩
  · rw [hf, accessOutsideTheWindowFaults (s.setSticky m i o as) a (by rw [setSticky_cfg]; omega)]
    exact .fault _
  · have ho' : access (.read w (s.cfg.base + off)) (s.setSticky m i o as) = readTarget (target s.cfg w off) _ :=
      access_read_offset w (s.setSticky m i o as) hoff
    rw [ho, ho']
    refine endsAlike_readTarget m i o as s fun ht => ha ?_
    obtain ⟨rfl, rfl⟩ := target_eq_reg (by decide) ht
    rfl
  · have ho' : access (.write w (s.cfg.base + off) v) (s.setSticky m i o as) = writeTarget (target s.cfg w off) v _ :=
      access_write_offset w v (s.setSticky m i o as) hoff
    rw [ho, ho']
    exact endsAlike_writeTarget m i o as s _ v

/-- So does a step. -/
theorem endsAlike_step (hx : ∀ rest, s.inputs ≠ .access (.read .w32 (s.cfg.base + 0x004)) :: rest) :
    EndsAlike s.answers as (step s) (step (s.setSticky m i o as)) := by
  rcases step_cases s with ⟨hnil, -⟩ | ⟨a, rest, ha, -⟩ | ⟨rest, hr, -⟩
  · rw [step, step, setSticky_inputs, hnil]
    exact .next [] rfl rfl rfl
  · rw [step, step, setSticky_inputs, ha]
    have halike := endsAlike_access m i o as { s with inputs := rest } (a := a) fun h => hx rest (h ▸ ha)
    exact halike
  · rw [step_of_reset hr, step_of_reset (s := s.setSticky m i o as) hr]
    exact .next [] rfl rfl rfl
end

/-! ## The statement -/

/-- The STATUS words of two such states agree outside the sticky bits' positions (R17). -/
theorem statusBit_setSticky (m i o : Bool) (as : List Answer) (s : State) {k : Nat} (h8 : k ≠ 8) (h9 : k ≠ 9)
    (h10 : k ≠ 10) :
    statusBit s.cfg (s.setSticky m i o as).block k = statusBit s.cfg s.block k := by
  match k with
  | 8 => exact absurd rfl h8
  | 9 => exact absurd rfl h9
  | 10 => exact absurd rfl h10
  | 0 | 1 | 2 | 3 | 4 | 5 | 6 | 7 | _ + 11 => rfl

/-- A read of STATUS answers the STATUS word, and takes the input. -/
theorem step_statusRead {s : State} {rest : List HostInput}
    (hx : s.inputs = .access (.read .w32 (s.cfg.base + 0x004)) :: rest) :
    step s = .next (State.answer (.word (statusWord s.cfg s.block)) { s with inputs := rest }) := by
  rw [step, hx]
  exact memRead_register (r := .status) (by decide) { s with inputs := rest }

/-- Settles O42: a read of STATUS answers from each state its own STATUS word, and any other input ends alike from both. -/
theorem stickyBitsNeverBlock : Obligations.StickyBitsNeverBlock := by
  intro s s' h
  obtain ⟨m, i, o, as, rfl⟩ := agreeButErrors_iff.1 h
  by_cases hx : ∃ rest, s.inputs = .access (.read .w32 (s.cfg.base + 0x004)) :: rest
  · obtain ⟨rest, hx⟩ := hx
    rw [step_statusRead hx, step_statusRead (s := s.setSticky m i o as) hx]
    refine ⟨nofun, ?_⟩
    rintro t ⟨⟩
    refine ⟨_, [_], [_], rfl, rfl, rfl, rfl, .inr ⟨rest, _, _, hx, rfl, rfl, fun k h8 h9 h10 => ?_⟩⟩
    rw [getLsbD_statusWord, getLsbD_statusWord]
    exact statusBit_setSticky m i o as s h8 h9 h10
  · have halike := endsAlike_step m i o as s (not_exists.1 hx)
    generalize step s = r, step (s.setSticky m i o as) = r' at halike ⊢
    cases halike with
    | fault f => exact ⟨fun _ hf => hf, nofun⟩
    | @next t t' new hagree ht ht' =>
      refine ⟨nofun, ?_⟩
      rintro _ ⟨⟩
      exact ⟨t', new, new, rfl, hagree, ht, ht', .inl rfl⟩

end Sys2Proof.Machine
end

section
/-! SUPPORT. What changes each part of the block (10_state.md sections 2 to 4; 60_exceptions.md section 4): the clearing of a
sticky bit, the writers of each register and of each FBUF byte. -/

namespace Sys2Proof.Machine

/-! ## The clearing of a sticky bit -/

/-- The input x clears e: a STATUS write with 1 at its position, CLEAR, or reset (R20, R78). -/
def ClearedBy (c : Config) (x : HostInput) (e : ErrorBit) : Prop :=
  (∃ v, v.getLsbD (errorPosition e) = true ∧ Writes32 c x 0x004 v) ∨ IsCommand c x (encodeCmd .clear) ∨ x = .reset

/-- A write clears a bit at two offsets: by CLEAR's word at CMD, and by its own value at STATUS. -/
theorem clearedBy_write_iff (c : Config) (w : Width) (off : Nat) (v : Word) (e : ErrorBit) :
    ClearedBy c (.access (.write w (c.base + off) v)) e ↔
      w = .w32 ∧ ((off = 0x004 ∧ v.getLsbD (errorPosition e) = true) ∨ (off = 0x000 ∧ v = encodeCmd .clear)) := by
  simp only [ClearedBy, isCommand_write_iff, writes32_write_iff, reduceCtorEq, or_false]
  constructor
  · rintro (⟨v', hv, rfl, rfl, rfl⟩ | ⟨rfl, rfl, rfl⟩)
    · exact ⟨rfl, .inl ⟨rfl, hv⟩⟩
    · exact ⟨rfl, .inr ⟨rfl, rfl⟩⟩
  · rintro ⟨rfl, ⟨rfl, hv⟩ | ⟨rfl, rfl⟩⟩
    · exact .inl ⟨v, hv, rfl, rfl, rfl⟩
    · exact .inr ⟨rfl, rfl, rfl⟩

theorem not_clearedBy_read (c : Config) (w : Width) (addr : Nat) (e : ErrorBit) :
    ¬ClearedBy c (.access (.read w addr)) e := by
  rintro (⟨_, _, h⟩ | h | h) <;> cases h

/-- Of one performed input: a sticky bit that is 1 becomes 0 exactly when the input clears it. -/
theorem performed_errorBit_cleared {s t : State} {x : HostInput} {e : ErrorBit} (h : Performed s x t)
    (h1 : s.block.errorBit e = true) : t.block.errorBit e = false ↔ ClearedBy s.cfg x e := by
  have hkeep (hbit : t.block.errorBit e = true) (hx : ¬ClearedBy s.cfg x e) :
      t.block.errorBit e = false ↔ ClearedBy s.cfg x e :=
    iff_of_false (by rw [hbit]; exact nofun) hx
  cases h with
  | reset => exact iff_of_true (errorBit_reset e) (.inr (.inr rfl))
  | command w i u hd he =>
    obtain rfl := decodeCmd_eq_ok_iff.1 hd
    rw [answer_block, ← Bool.not_eq_true, exec_errorBit he, clearedBy_write_iff]
    cases i <;> simp [h1]
  | illegal w r hd =>
    have hne : w ≠ encodeCmd .clear := by
      rintro rfl
      rw [decodeCmd_encodeCmd] at hd
      cases hd
    refine hkeep ?_ (by rw [clearedBy_write_iff]; simp [hne])
    rw [answer_block, raise_block, setError_errorBit, h1, ite_self]
  | status v =>
    rw [answer_block, clearErrors_errorBit_eq, clearedBy_write_iff]
    simp [h1]
  | flen v => exact hkeep ((writeFlen_errorBit v s e).2 (.inr h1)) (by simp [clearedBy_write_iff])
  | seq | ack | fin | cor | len | frameWrite => exact hkeep (by cases e <;> exact h1) (by simp [clearedBy_write_iff])
  | ignoredWrite off v hlo hhi => exact hkeep h1 (by rw [clearedBy_write_iff]; omega)
  | tailWrite i v hi => exact hkeep h1 (by simp [clearedBy_write_iff])
  | busErrorWrite w off v hb =>
    refine hkeep h1 ?_
    rw [clearedBy_write_iff]
    rintro ⟨rfl, ⟨rfl, -⟩ | ⟨rfl, -⟩⟩ <;> simp at hb
  | registerRead | frameRead | tailRead | busErrorRead => exact hkeep h1 (not_clearedBy_read _ _ _ e)

/-- Settles O41: the step performs its first input, which clears a bit as listed and in no other way. -/
theorem stickyBitsClearedOnlyByTheHost : Obligations.StickyBitsClearedOnlyByTheHost := by
  intro s t x rest hx hstep
  have hp {e : ErrorBit} := performed_errorBit_cleared (e := e) (performed_of_step hx hstep)
  exact ⟨hp (e := .malf), hp (e := .ill), hp (e := .ovr)⟩

/-! ## The writers of a register -/

/-- The commands that write a register (R54, R58, R59, R68). STATUS, CMD, CFG and the reserved offsets hold none (R8). -/
def commandWriters : Reg → List Instr
  | .seq | .ack | .fin | .cor | .len => [.decode, .clear]
  | .flen => [.encode, .encodeFc, .clear]
  | .pavail => [.encode, .encodeFc, .decode, .clear]
  | .cmd | .status | .cfg | .reserved => []

/-- A command leaves every register that it is no writer of. -/
theorem exec_readReg {i : Instr} {r : Reg} {s t : State} (h : exec i s = .next t) (hr : r ≠ .status)
    (hi : i ∉ commandWriters r) : readReg r t = readReg r s := by
  cases i with
  | nop => cases h; rfl
  | clear =>
    cases h
    cases r with
    | status => exact absurd rfl hr
    | cmd | cfg | reserved => rfl
    | _ => exact absurd (by decide) hi
  | encode | encodeFc =>
    cases h
    cases r with
    | status => exact absurd rfl hr
    | flen | pavail => exact absurd (by decide) hi
    | _ => rfl
  | decode =>
    rw [exec_decode] at h
    rcases execDecode_cases s with ⟨-, hd⟩ | ⟨-, _, -, hd⟩ | ⟨-, -, hd⟩ <;> rw [hd] at h <;> cases h
    all_goals
      cases r with
      | status => exact absurd rfl hr
      | cmd | flen | cfg | reserved => rfl
      | _ => exact absurd (by decide) hi

/-- A write to a register, CMD aside, changes what no other register reads as; STATUS aside. -/
theorem writeReg_readReg {r r' : Reg} {v : Word} {s u : State} (h : writeReg r' v s = .next u) (hcmd : r' ≠ .cmd)
    (hr : r ≠ .status) (hne : r ≠ r') : readReg r u = readReg r s := by
  cases r' with
  | cmd => exact absurd rfl hcmd
  | flen =>
    cases h
    rcases Nat.lt_or_ge s.cfg.bufSize v.toNat with hv | hv
    · rw [writeFlen_above hv]
      cases r <;> try contradiction
      all_goals rfl
    · rw [writeFlen_within hv]
      cases r <;> try contradiction
      all_goals rfl
  | _ =>
    cases h
    cases r <;> try contradiction
    all_goals rfl

/-- Of one performed input: where a register reads differently afterwards, the input wrote it (never PAVAIL, R38), ran one of
its command writers, or reset the block. -/
theorem performed_readReg {s t : State} {x : HostInput} {r : Reg} (h : Performed s x t) (hr : r ≠ .status)
    (hne : readReg r t ≠ readReg r s) :
    (r ≠ .pavail ∧ ∃ v, Writes32 s.cfg x r.offset v) ∨ (∃ i ∈ commandWriters r, IsCommand s.cfg x (encodeCmd i)) ∨
      x = .reset := by
  have hwrite {r' : Reg} {v : Word} {u : State} (hu : writeReg r' v s = .next u) (hcmd : r' ≠ .cmd)
      (hpavail : r' ≠ .pavail) (hread : readReg r t = readReg r u) (hx : Writes32 s.cfg x r'.offset v) :
      r ≠ .pavail ∧ ∃ v, Writes32 s.cfg x r.offset v := by
    obtain rfl : r = r' := by_contra fun hrr => hne (hread.trans (writeReg_readReg hu hcmd hr hrr))
    exact ⟨hpavail, v, hx⟩
  cases h with
  | reset => exact .inr (.inr rfl)
  | command w i u hd he =>
    rw [readReg_answer] at hne
    obtain rfl := decodeCmd_eq_ok_iff.1 hd
    exact .inr (.inl ⟨i, by_contra fun hi => hne (exec_readReg he hr hi), rfl⟩)
  | seq v => exact .inl (hwrite (r' := .seq) rfl (by decide) (by decide) (readReg_answer ..) rfl)
  | ack v => exact .inl (hwrite (r' := .ack) rfl (by decide) (by decide) (readReg_answer ..) rfl)
  | fin v => exact .inl (hwrite (r' := .fin) rfl (by decide) (by decide) (readReg_answer ..) rfl)
  | cor v => exact .inl (hwrite (r' := .cor) rfl (by decide) (by decide) (readReg_answer ..) rfl)
  | len v => exact .inl (hwrite (r' := .len) rfl (by decide) (by decide) (readReg_answer ..) rfl)
  | flen v => exact .inl (hwrite (r' := .flen) rfl (by decide) (by decide) (readReg_answer ..) rfl)
  | _ =>
    refine absurd ?_ hne
    cases r with
    | status => exact absurd rfl hr
    | _ => rfl

theorem setWidth_half_ne {a b : Half} (h : a ≠ b) : a.setWidth 32 ≠ b.setWidth 32 := fun he => h <| by
  simpa using congrArg (BitVec.setWidth 16) he

/-- Settles O48: the step performs its first input, and the registers' writers are the listed ones. -/
theorem registersChangeOnlyByTheirWriters : Obligations.RegistersChangeOnlyByTheirWriters := by
  intro s t x rest hx hstep
  have hp {r : Reg} (hr : r ≠ .status) (hne : readReg r t ≠ readReg r s) :=
    performed_readReg (performed_of_step hx hstep) hr hne
  have hfield {r : Reg} (hr : r ≠ .status) (hw : commandWriters r = [.decode, .clear])
      (hne : readReg r t ≠ readReg r s) :
      (∃ v, Writes32 s.cfg x r.offset v) ∨ IsCommand s.cfg x (encodeCmd .decode) ∨
        IsCommand s.cfg x (encodeCmd .clear) ∨ x = .reset := by
    have h := (hp hr hne).imp_left And.right
    simpa [hw, or_assoc] using h
  refine ⟨hfield (r := .seq) (by decide) rfl, hfield (r := .ack) (by decide) rfl,
    fun h => hfield (r := .fin) (by decide) rfl (setWidth_half_ne h),
    fun h => hfield (r := .cor) (by decide) rfl (setWidth_half_ne h), hfield (r := .len) (by decide) rfl,
    fun h => ?_, fun h => ?_⟩
  · have hflen : (∃ v, Writes32 s.cfg x Reg.flen.offset v) ∨ IsCommand s.cfg x (encodeCmd .encode) ∨
        IsCommand s.cfg x (encodeCmd .encodeFc) ∨ IsCommand s.cfg x (encodeCmd .clear) ∨ x = .reset := by
      simpa [commandWriters, or_assoc] using hp (r := .flen) (by decide) h
    exact hflen
  · have hpavail : IsCommand s.cfg x (encodeCmd .encode) ∨ IsCommand s.cfg x (encodeCmd .encodeFc) ∨
        IsCommand s.cfg x (encodeCmd .decode) ∨ IsCommand s.cfg x (encodeCmd .clear) ∨ x = .reset := by
      simpa [commandWriters, or_assoc] using hp (r := .pavail) (by decide) h
    exact hpavail

/-! ## The writers of an FBUF byte -/

@[simp] theorem writeFlen_fbuf (v : Word) (s : State) : (s.writeFlen v).block.fbuf = s.block.fbuf := by
  unfold State.writeFlen
  split <;> rfl

/-- R54: of the commands ENCODE alone, of either form, writes FBUF, and only its header bytes. -/
theorem exec_fbuf {i : Instr} {s t : State} {a : Nat} (h : exec i s = .next t)
    (hne : t.block.fbuf.read a ≠ s.block.fbuf.read a) : a < 16 ∧ (i = .encode ∨ i = .encodeFc) := by
  cases i with
  | nop | clear => cases h; exact absurd rfl hne
  | encode => cases h; exact ⟨Nat.lt_of_not_le fun ha => hne (serialize_payload false s ha), .inl rfl⟩
  | encodeFc => cases h; exact ⟨Nat.lt_of_not_le fun ha => hne (serialize_payload true s ha), .inr rfl⟩
  | decode =>
    rw [exec_decode] at h
    rcases execDecode_cases s with ⟨-, hd⟩ | ⟨-, _, -, hd⟩ | ⟨-, -, hd⟩ <;> rw [hd] at h <;> cases h
    all_goals exact absurd rfl hne

/-- Settles O49: the step performs its first input, and each way of performing one that reaches FBUF is listed. -/
theorem bufferBytesChangeOnlyByTheirWriters : Obligations.BufferBytesChangeOnlyByTheirWriters := by
  intro s t x rest hx hstep a hne
  cases performed_of_step hx hstep with
  | reset => exact .inr (.inr ⟨rfl, read_nil a⟩)
  | command w i u hd he =>
    obtain rfl := decodeCmd_eq_ok_iff.1 hd
    obtain ⟨ha, rfl | rfl⟩ := exec_fbuf he hne
    · exact .inr (.inl ⟨ha, .inl rfl⟩)
    · exact .inr (.inl ⟨ha, .inr rfl⟩)
  | frameWrite i v hi hw =>
    obtain rfl : a = i := by_contra fun hai => hne (read_write_of_ne _ _ hai)
    refine .inl ⟨hi, v, rfl, ?_⟩
    rw [← BitVec.setWidth_eq_extractLsb' (by decide)]
    exact read_write_same ..
  | flen v => exact absurd (congrArg (Memory.read · a) (writeFlen_fbuf v _)) hne
  | _ => exact absurd rfl hne

end Sys2Proof.Machine
end

section
/-! SUPPORT. The statements on legality by fields (30_encoding.md section 2), on what a step runs and how it ends
(00_scope.md R6; 60_exceptions.md section 2), and on a raise. -/

namespace Sys2Proof.Machine

/-! ## Command words -/

/-- R50: an illegal word is rejected by its reason. -/
theorem decodeCmd_eq_error_iff {w : Word} {r : DecodeError} :
    decodeCmd w = .error r ↔ ¬LegalWord w ∧ illegalReason w = r := by
  have hlegal : (∃ i, decodeCmd w = .ok i) ↔ LegalWord w := by
    simp only [decodeCmd_eq_ok_iff, legalWord_iff_exists_encodeCmd]
  constructor
  · intro h
    refine ⟨fun hw => ?_, ?_⟩
    · obtain ⟨i, hi⟩ := hlegal.2 hw
      rw [hi] at h
      cases h
    · unfold decodeCmd at h
      split_ifs at h
      exact Except.error.inj h
  · rintro ⟨hw, rfl⟩
    unfold LegalWord at hw
    push Not at hw
    obtain ⟨h0, h1, h11, h2, h3⟩ := hw
    rw [decodeCmd, if_neg h0, if_neg h1, if_neg h11, if_neg h2, if_neg h3]

/-- RSV is looked at first, then OP (notes/assumptions/12.md). -/
theorem illegalReason_iff (w : Word) :
    (illegalReason w = .reservedBitsSet ↔ cmdRsv w ≠ 0) ∧
      (illegalReason w = .reservedOp ↔ cmdRsv w = 0 ∧ 4 ≤ (cmdOp w).toNat) ∧
        (illegalReason w = .fcWithoutEncode ↔ cmdRsv w = 0 ∧ (cmdOp w).toNat ≤ 3) := by
  unfold illegalReason
  split_ifs with hrsv hop
  · simp_all
  · simp_all [Nat.not_le.2 (show 3 < (cmdOp w).toNat by omega)]
  · simp_all [show (cmdOp w).toNat ≤ 3 by omega]

/-- Settles O2: legality goes by the fields, and so does each reason; among the words that reach the last reason, the legal
ones are those where FC goes with OP = 1 only. -/
theorem commandFieldsDecideLegality : Obligations.CommandFieldsDecideLegality := by
  intro w
  obtain ⟨hrsv, hop, hfc⟩ := illegalReason_iff w
  simp only [decodeCmd_eq_error_iff, decodeCmd_eq_ok_iff, ← legalWord_iff_exists_encodeCmd, legalWord_iff_fields,
    hrsv, hop, hfc, true_and]
  refine ⟨⟨And.right, fun h => ⟨fun ⟨hzero, _⟩ => h hzero, h⟩⟩, ⟨And.right, fun h => ⟨fun hl => ?_, h⟩⟩, ?_⟩
  · obtain ⟨-, hle, -⟩ := hl
    omega
  · tauto

/-- A table word of 32 bits is the word itself. -/
theorem tableWord_toNat (w : Word) : tableWord 32 w.toNat = w := by
  rw [tableWord, Nat.mod_eq_of_lt w.isLt, BitVec.ofNat_toNat, BitVec.setWidth_eq]

/-- Settles O3: the decoder gives back the command, and a table word of 32 bits is the word itself. -/
theorem encodedCommandDecodesBack : Obligations.EncodedCommandDecodesBack := by
  intro i
  refine ⟨decodeCmd_encodeCmd i, ?_⟩
  rw [decodeTableWord, if_pos (Nat.le_refl 32), tableWord_toNat, decodeCmd_encodeCmd]

/-! ## A step -/

/-- Settles O5: a write to CMD starts what its word decodes to, and withFetchWord puts such a write first. -/
theorem stepRunsTheDecodedCommand : Obligations.StepRunsTheDecodedCommand := by
  have hrun (s : State) (w : Word) (i : Instr) (rest : List HostInput)
      (hx : s.inputs = .access (.write .w32 (s.cfg.base + 0x000) w) :: rest) (hd : decodeCmd w = .ok i) :
      step s = answerDone (exec i { s with inputs := rest }) := by
    have hwrite : step s = answerDone (startCommand w { s with inputs := rest }) :=
      (step_of_writes32 hx rfl).trans (memWrite_register (r := .cmd) (by decide) w _)
    rw [hwrite, startCommand, hd]
  refine ⟨hrun, fun s i => ?_⟩
  exact hrun (s.withFetchWord 32 (encodeCmd i).toNat) _ i s.inputs rfl (by rw [tableWord_toNat, decodeCmd_encodeCmd])

/-- An outcome that is a next state or the fault UndefinedByte. -/
def CompletesOrUndefined (o : Result) : Prop := (∃ t, o = .next t) ∨ o = .fault .undefinedByte

theorem completes_exec (i : Instr) (s : State) : CompletesOrUndefined (exec i s) :=
  (exec_cases i s).imp_right And.right

theorem completes_answerDone {o : Result} (h : CompletesOrUndefined o) : CompletesOrUndefined (answerDone o) := by
  obtain ⟨t, rfl⟩ | rfl := h
  · exact .inl ⟨_, rfl⟩
  · exact .inr rfl

theorem completes_writeTarget (g : Target) (v : Word) (s : State) : CompletesOrUndefined (writeTarget g v s) := by
  cases g with
  | reg r =>
    apply completes_answerDone
    cases r with
    | cmd =>
      simp only [writeReg, startCommand]
      cases decodeCmd v with
      | ok i => exact completes_exec i s
      | error r => exact .inl ⟨_, rfl⟩
    | _ => exact .inl ⟨_, rfl⟩
  | _ => exact .inl ⟨_, rfl⟩

theorem completes_readTarget (g : Target) (s : State) : CompletesOrUndefined (readTarget g s) := by
  cases g with
  | frameByte i =>
    simp only [readTarget]
    cases s.block.fbuf.read i with
    | some b => exact .inl ⟨_, rfl⟩
    | none => exact .inr rfl
  | _ => exact .inl ⟨_, rfl⟩

/-- Settles O7: an access outside the window ends in the model's fault, and every other input completes or reads an unvalued
byte. -/
theorem stepCompletesOrFaultsByName : Obligations.StepCompletesOrFaultsByName := by
  intro s
  rcases step_cases s with ⟨-, hs⟩ | ⟨a, rest, hx, hs⟩ | ⟨rest, -, hs⟩
  · exact .inl ⟨_, hs⟩
  · rw [hs]
    rcases access_cases a { s with inputs := rest } with ⟨hout, ha⟩ | ⟨off, -, ⟨w, rfl, ha⟩ | ⟨w, v, rfl, ha⟩⟩ <;> rw [ha]
    · exact .inr (.inr ⟨rfl, a, rest, hx, hout⟩)
    · exact or_assoc.1 (.inl (completes_readTarget ..))
    · exact or_assoc.1 (.inl (completes_writeTarget ..))
  · exact .inl ⟨_, hs⟩

/-! ## A raise -/

/-- Settles O37: a raise is the setting of its bit, logged. -/
theorem raiseSetsItsBitOnly : Obligations.RaiseSetsItsBitOnly := fun _ => ⟨rfl, rfl, rfl⟩

end Sys2Proof.Machine
end

section
/-! SUPPORT. The statements on the outgoing frame (30_encoding.md R46), on what DECODE reads (41_deserializer.md) and on reads
(20_memory.md section 3). -/

namespace Sys2Proof.Machine

/-! ## The outgoing frame -/

@[simp] theorem length_wireHeader (e : Endian) (h : Header) : (wireHeader e h).length = 16 := by cases e <;> rfl

/-- The first bytes of FBUF as a list, where they are given bytes. -/
theorem map_read_range {m : Memory} {bs : List Byte} {n : Nat} (hlen : n = bs.length)
    (hread : ∀ k, k < n → m.read k = bs[k]?) : (List.range n).map m.read = bs.map some := by
  subst hlen
  refine List.ext_getElem (by simp) fun k _ hk => ?_
  rw [List.length_map] at hk
  simp [hread k hk, hk]

/-- R46, of either form of ENCODE. -/
theorem serialize_frame {s : State} (hs : s.cfg.wf = true) (fc : Bool) :
    (serialize fc s).block.frame = (wireHeader s.cfg.endian (outgoingHeader fc s.block)).map some ++
      (List.range (min s.block.len.toNat s.cfg.maxPayload)).map fun k => s.block.fbuf.read (16 + k) := by
  rw [Block.frame, serialize_flen_toNat hs, List.range_add, List.map_append, List.map_map,
    map_read_range (length_wireHeader ..).symm (serialize_headerBytes fc s)]
  congr 1
  exact List.map_congr_left fun k _ => serialize_payload fc s (Nat.le_add_right 16 k)

/-- Settles O13: the frame ENCODE leaves is its header and the payload bytes it did not write. -/
theorem outgoingFrameIsHeaderThenPayload : Obligations.OutgoingFrameIsHeaderThenPayload := fun s hs =>
  ⟨⟨_, exec_encode s, serialize_frame hs false⟩, _, exec_encodeFc s, serialize_frame hs true⟩

/-! ## What DECODE reads -/

/-- Settles O17: the header read is the same from both, so either has none and both fault, or both load it. -/
theorem decodeReadsOnlyTheHeader : Obligations.DecodeReadsOnlyTheHeader := by
  intro s s' hend hflen hlen hbytes
  have hlen' : 16 ≤ s'.block.flen.toNat := hflen ▸ hlen
  have hget : getHeader s'.cfg.endian s'.block.fbuf = getHeader s.cfg.endian s.block.fbuf := by
    rw [hend, getHeader_congr _ hbytes]
  cases hh : getHeader s.cfg.endian s.block.fbuf with
  | none =>
    exact .inl ⟨exec_decode_of_unvalued hlen (getHeader_eq_none_iff.1 hh),
      exec_decode_of_unvalued hlen' (getHeader_eq_none_iff.1 (hget.trans hh))⟩
  | some h =>
    have hpavail : (loadHeader h s').block.pavail = (loadHeader h s).block.pavail := by
      rw [loadHeader, loadHeader, hflen]
    exact .inr ⟨_, _, exec_decode_of_header hlen hh, exec_decode_of_header hlen' (hget.trans hh), rfl, hpavail, rfl, rfl,
      rfl, rfl⟩

/-! ## Reads -/

/-- A read that is answered changes the answers and the log alone, and is answered the same when it is done again. -/
theorem readTarget_eq_next {g : Target} {s t : State} (h : readTarget g s = .next t) :
    t.cfg = s.cfg ∧ t.block = s.block ∧ t.inputs = s.inputs ∧ ∃ r, t.answers = r :: s.answers ∧
      ∃ u, readTarget g t = .next u ∧ u.answers = r :: t.answers ∧ u.block = s.block := by
  cases g with
  | reg r =>
    cases h
    exact ⟨rfl, rfl, rfl, _, rfl, _, rfl, by rw [readReg_answer]; rfl, rfl⟩
  | frameByte i =>
    simp only [readTarget] at h ⊢
    cases hb : s.block.fbuf.read i with
    | none => rw [hb] at h; cases h
    | some b =>
      rw [hb] at h
      cases h
      exact ⟨rfl, rfl, rfl, _, rfl, (s.answer (.byte b)).answer (.byte b), by simp [hb], rfl, rfl⟩
  | tail | busError =>
    cases h
    exact ⟨rfl, rfl, rfl, _, rfl, _, rfl, rfl, rfl⟩

/-- Settles O21: an answered read reaches the same place when it is done again. -/
theorem readsChangeNoState : Obligations.ReadsChangeNoState := by
  intro w addr s t h
  rcases access_cases (.read w addr) s with ⟨-, ha⟩ | ⟨off, hoff, ⟨w', hw, ha⟩ | ⟨w', v, hw, -⟩⟩
  · rw [ha] at h
    cases h
  · cases hw
    rw [ha] at h
    obtain ⟨hcfg, hblock, hinputs, r, hr, u, hu, hagain⟩ := readTarget_eq_next h
    refine ⟨hblock, hcfg, hinputs, r, hr, u, ?_, hagain⟩
    rw [← hcfg, access_read_offset w t hoff, hcfg]
    exact hu
  · cases hw

end Sys2Proof.Machine
end

section
/-! SUPPORT. The pseudo-instructions as runs (30_encoding.md section 4): SETHDR, RXFRAME and TXREAD, an access at a time. -/

namespace Sys2Proof.Machine

/-! ## The first access of a run -/

section
variable {c : Config} {b b' : Block} {rest : List HostInput} {as : List Answer} {log log' : List Cause}

/-- A run whose first access writes a register is the rest of the run from what that write left. -/
theorem run_writeReg {r : Reg} (hr : r ≠ .reserved) {v : Word} (n : Nat)
    (hu : writeReg r v ⟨c, b, rest, as, log⟩ = .next ⟨c, b', rest, as, log'⟩) :
    core.run (n + 1) ⟨c, b, .access (.write .w32 (c.base + r.offset) v) :: rest, as, log⟩ =
      core.run n ⟨c, b', rest, .done :: as, log'⟩ := by
  apply run_succ_of_next
  have hwrite := memWrite_register hr v ⟨c, b, rest, as, log⟩
  rw [hu] at hwrite
  exact hwrite

/-- A run whose first access writes the byte FBUF[i] is the rest of the run from what that write left. -/
theorem run_frameWrite {i : Nat} {v : Word} (n : Nat) (hc : c.wf = true) (hi : i < c.bufSize) :
    core.run (n + 1) ⟨c, b, .access (.write .w8 (c.base + (0x400 + i)) v) :: rest, as, log⟩ =
      core.run n ⟨c, b.writeFrameByte i (v.setWidth 8), rest, .done :: as, log⟩ :=
  run_succ_of_next n (memWrite_frameByte (s := ⟨c, b, rest, as, log⟩) hi (frameByte_in_window hc hi) v)
end

/-! ## SETHDR -/

/-- Settles O55: five register writes, one after the other. -/
theorem sethdrLoadsTheFields : Obligations.SethdrLoadsTheFields := by
  intro s q a f c l rest
  simp only [Pseudo.inputs, Pseudo.transactions, Pseudo.expand, List.map_cons, List.map_nil, List.cons_append,
    List.nil_append, Txn.access]
  rw [run_writeReg (r := .seq) (by decide) 4 rfl, run_writeReg (r := .ack) (by decide) 3 rfl,
    run_writeReg (r := .fin) (by decide) 2 rfl, run_writeReg (r := .cor) (by decide) 1 rfl,
    run_writeReg (r := .len) (by decide) 0 rfl, ← BitVec.setWidth_eq_extractLsb' (by decide),
    ← BitVec.setWidth_eq_extractLsb' (by decide)]
  rfl

/-! ## RXFRAME -/

/-- Bytes stored at FBUF[i] onward, in increasing order. -/
def Block.writeFrameBytes (i : Nat) : List Byte → Block → Block
  | [], b => b
  | v :: vs, b => Block.writeFrameBytes (i + 1) vs (b.writeFrameByte i v)

/-- Everything such a store does to the bytes. -/
theorem read_writeFrameBytes (i : Nat) (vs : List Byte) (b : Block) (a : Nat) :
    (b.writeFrameBytes i vs).fbuf.read a =
      if i ≤ a ∧ a < i + vs.length then vs[a - i]? else b.fbuf.read a := by
  induction vs generalizing i b with
  | nil => rw [if_neg (by simp)]; rfl
  | cons v vs ih =>
    have hfirst : (b.writeFrameByte i v).fbuf.read a = if a = i then some v else b.fbuf.read a := read_write ..
    rw [Block.writeFrameBytes, ih, hfirst, List.length_cons]
    rcases Nat.lt_trichotomy a i with ha | rfl | ha
    · rw [if_neg (by omega), if_neg (by omega), if_neg (by omega)]
    · rw [if_neg (by omega), if_pos rfl, if_pos (by omega), Nat.sub_self, List.getElem?_cons_zero]
    · obtain ⟨k, rfl⟩ := Nat.exists_eq_add_of_lt ha
      have hcond : (i + 1 ≤ i + k + 1 ∧ i + k + 1 < i + 1 + vs.length) ↔
          i ≤ i + k + 1 ∧ i + k + 1 < i + (vs.length + 1) := by omega
      rw [if_neg (Nat.ne_of_gt ha), show i + k + 1 - (i + 1) = k by omega, show i + k + 1 - i = k + 1 by omega,
        List.getElem?_cons_succ]
      simp only [hcond]

/-- The rest of the block stays. -/
theorem writeFrameBytes_invalidate (i : Nat) (vs : List Byte) (b : Block) :
    (b.writeFrameBytes i vs).invalidate = { b.invalidate with fbuf := (b.writeFrameBytes i vs).fbuf } := by
  induction vs generalizing i b with
  | nil => rfl
  | cons v vs ih => exact ih (i + 1) (b.writeFrameByte i v)

/-- The byte writes of WRBUF inside FBUF, run. -/
theorem run_writeBytes {c : Config} (hc : c.wf = true) (i : Nat) (vs : List Byte) (hi : i + vs.length ≤ c.bufSize)
    (n : Nat) (b : Block) (rest : List HostInput) (as : List Answer) (log : List Cause) :
    core.run (vs.length + n) ⟨c, b, ((writeBytes i vs).map fun t => .access (t.access c)) ++ rest, as, log⟩ =
      core.run n ⟨c, b.writeFrameBytes i vs, rest, List.replicate vs.length .done ++ as, log⟩ := by
  induction vs generalizing i b as with
  | nil => rw [List.length_nil, Nat.zero_add]; rfl
  | cons v vs ih =>
    rw [List.length_cons] at hi ⊢
    have hbyte : (v.setWidth 32 : Word).setWidth 8 = v := by simp
    have hfirst := run_frameWrite (c := c) (b := b) (i := i) (v := v.setWidth 32) (as := as) (log := log)
      (rest := ((writeBytes (i + 1) vs).map fun t => .access (t.access c)) ++ rest) (vs.length + n) hc (by omega)
    rw [hbyte, ih (i + 1) (by omega)] at hfirst
    rw [Nat.add_right_comm, List.replicate_succ', List.append_assoc]
    exact hfirst

/-- R37 in one equation: the clamp is a minimum, and E_OVR is raised when it bites. -/
theorem writeFlen_eq (v : Word) (s : State) :
    s.writeFlen v = { s with
      block :=
        { s.block.invalidate with
          flen := BitVec.ofNat 32 (min v.toNat s.cfg.bufSize)
          eOvr := s.block.invalidate.eOvr || decide (s.cfg.bufSize < v.toNat) }
      raised := if s.cfg.bufSize < v.toNat then .error .ovr :: s.raised else s.raised } := by
  rcases Nat.lt_or_ge s.cfg.bufSize v.toNat with hv | hv
  · rw [writeFlen_above hv, Nat.min_eq_right hv.le, decide_eq_true hv, Bool.or_true, if_pos hv]
    rfl
  · rw [writeFlen_within hv, Nat.min_eq_left hv, BitVec.ofNat_toNat, BitVec.setWidth_eq,
      decide_eq_false (Nat.not_lt.2 hv), Bool.or_false, if_neg (Nat.not_lt.2 hv)]

/-- Settles O56: the byte writes store the datagram's first bytes at FBUF[0], and the write to FLEN counts them. -/
theorem rxframeLoadsTheDatagram : Obligations.RxframeLoadsTheDatagram := by
  intro s n bs rest hc hwf
  have hlen : bs.length = min n.toNat s.cfg.bufSize := beq_iff_eq.1 hwf
  have hread (a : Nat) := read_writeFrameBytes 0 bs s.block a
  have hflen : (BitVec.ofNat 32 (min n.toNat s.cfg.bufSize)).toNat = bs.length := by
    rw [hlen]
    exact Nat.mod_eq_of_lt ((Nat.min_le_left ..).trans_lt n.isLt)
  have hinputs : (Pseudo.rxframe n bs).inputs s ++ rest =
      ((writeBytes 0 bs).map fun t => .access (t.access s.cfg)) ++
        .access (.write .w32 (s.cfg.base + Reg.flen.offset) n) :: rest := by
    rw [Pseudo.inputs, Pseudo.transactions, Pseudo.expand, List.map_append, List.append_assoc]
    rfl
  rw [hinputs, run_writeBytes hc 0 bs (by omega),
    run_writeReg (r := .flen) (by decide) 0 (congrArg Host.Outcome.next (writeFlen_eq ..)), writeFrameBytes_invalidate]
  refine ⟨_, rfl, ?_, hflen.trans hlen, fun a ha => ?_, rfl, rfl, rfl⟩
  · refine map_read_range hflen fun k hk => (hread k).trans ?_
    have hk' : k < bs.length := hk.trans_eq hflen
    rw [if_pos (by omega), Nat.sub_zero]
  · exact (hread a).trans (if_neg (by omega))

/-! ## TXREAD -/

/-- The host reads the byte FBUF[i]. -/
def frameReadInput (c : Config) (i : Nat) : HostInput := .access (.read .w8 (c.base + (0x400 + i)))

section
variable {c : Config} (hc : c.wf = true) (b : Block) (rest : List HostInput) (log : List Cause)
include hc

/-- Reads of valued bytes answer those bytes in order, and change nothing else. -/
theorem run_frameReads (js : List Nat) (hin : ∀ j ∈ js, j < c.bufSize) (vs : List Byte)
    (hread : js.map b.fbuf.read = vs.map some) (as : List Answer) :
    core.run js.length ⟨c, b, js.map (frameReadInput c) ++ rest, as, log⟩ =
      .next ⟨c, b, rest, (vs.map Answer.byte).reverse ++ as, log⟩ := by
  induction js generalizing vs as with
  | nil =>
    obtain rfl : vs = [] := by simpa using hread.symm
    rfl
  | cons j js ih =>
    obtain ⟨v, vs, rfl⟩ : ∃ v vs', vs = v :: vs' := List.exists_cons_of_ne_nil (by rintro rfl; simp at hread)
    obtain ⟨hj, hjs⟩ := List.forall_mem_cons.1 hin
    obtain ⟨hv, hvs⟩ := List.cons.inj hread
    have hstep := step_frameRead (s := ⟨c, b, (j :: js).map (frameReadInput c) ++ rest, as, log⟩) hc hj rfl
    simp only [readTarget, hv] at hstep
    rw [List.length_cons, run_succ_of_next _ hstep, List.map_cons, List.reverse_cons, List.append_assoc]
    exact ih hjs vs hvs (.byte v :: as)

/-- Reads among which one is of an unvalued byte end in the fault. -/
theorem run_frameReads_fault (js : List Nat) (hin : ∀ j ∈ js, j < c.bufSize)
    (hnone : ∃ j ∈ js, b.fbuf.read j = none) (as : List Answer) :
    core.run js.length ⟨c, b, js.map (frameReadInput c) ++ rest, as, log⟩ = .fault .undefinedByte := by
  induction js generalizing as with
  | nil => simp at hnone
  | cons j js ih =>
    obtain ⟨hj, hjs⟩ := List.forall_mem_cons.1 hin
    have hstep := step_frameRead (s := ⟨c, b, (j :: js).map (frameReadInput c) ++ rest, as, log⟩) hc hj rfl
    rw [List.length_cons]
    cases hv : b.fbuf.read j with
    | none =>
      simp only [readTarget, hv] at hstep
      exact run_succ_of_fault _ hstep
    | some v =>
      simp only [readTarget, hv] at hstep
      rw [run_succ_of_next _ hstep]
      have hrest : ∃ k ∈ js, b.fbuf.read k = none := by simpa [hv] using hnone
      exact ih hjs hrest (.byte v :: as)
end

/-- R53: TXREAD is the read of FLEN, answered, and then the byte reads of the frame. -/
theorem runProgram_txread (s : State) :
    runProgram [.pseudo .txread] s =
      core.run (List.range s.block.flen.toNat).length
        ⟨s.cfg, s.block, (List.range s.block.flen.toNat).map (frameReadInput s.cfg) ++ s.inputs,
          .word s.block.flen :: s.answers, s.raised⟩ := by
  obtain ⟨-, -, hrdbuf, -, htxread, -⟩ := pseudoInstructionsExpandAsListed
  have hinputs : Line.inputs (.pseudo .txread) s = .access (.read .w32 (s.cfg.base + 0x01C)) ::
      (List.range s.block.flen.toNat).map (frameReadInput s.cfg) := by
    have h := htxread s
    rw [hrdbuf] at h
    simp only [Nat.zero_add] at h
    exact h
  rw [runProgram_singleton, State.issue, hinputs, List.length_cons, List.length_map]
  exact run_succ_of_next _ (memRead_register (r := .flen) (by decide) { s with inputs := _ })

/-- Settles O57: with FLEN inside FBUF, each byte read reaches the frame's own byte. -/
theorem txreadReadsOutTheFrame : Obligations.TxreadReadsOutTheFrame := by
  intro s hc hlen
  have hin : ∀ j ∈ List.range s.block.flen.toNat, j < s.cfg.bufSize :=
    fun j hj => (List.mem_range.1 hj).trans_le hlen
  rw [runProgram_txread]
  refine ⟨fun bs hbs => run_frameReads hc _ _ _ _ hin bs hbs _, fun ⟨k, hk, hnone⟩ => ?_⟩
  exact run_frameReads_fault hc _ _ _ _ hin ⟨k, List.mem_range.2 hk, hnone⟩ _

end Sys2Proof.Machine
end
